-- ==== Sys2Proof/Word.lean ====
section
/-! DEFINITION. The words of the machine: an unsigned byte and a 16-bit address (00_scope.md R8). -/

namespace Sys2Proof

/-- The contents of a register or of a memory cell: an unsigned 8-bit value (R8). -/
abbrev Byte := BitVec 8

/-- An address, the program counter or the stack pointer: an unsigned 16-bit value (R8). -/
abbrev Addr := BitVec 16

end Sys2Proof
end

