-- ==== Sys2Proof/Syntax.lean ====
section
/-! DEFINITION. Registers, opcodes, formats and instructions of the JDH-8 core
(10_state.md R20, 30_encoding.md R82 to R84, spec/opcode_table.json). -/

namespace Sys2Proof

/-- The eight registers, in the order of their indices 0 to 7 (R20). -/
inductive Reg where
  | a | b | c | d | l | h | z | f
  deriving DecidableEq, Repr

/-- The sixteen opcodes (R84). -/
inductive Op where
  | mw | lw | sw | push | pop | lda | jnz | inb | outb
  | add | adc | and | or | nor | cmp | sbb
  deriving DecidableEq, Repr

/-- The instruction formats (R82). -/
inductive Format where
  /-- Opcode byte alone. -/
  | o
  /-- Opcode byte, immediate byte. -/
  | oi
  /-- Opcode byte, register specifier byte. -/
  | os
  /-- Opcode byte, high and low byte of a 16-bit operand. -/
  | oa
  deriving DecidableEq, Repr

/-- One constructor per row of spec/opcode_table.json. `r` is the register field of the opcode byte,
`s` the register of the specifier byte; `imm` and `addr` are the literal operands. -/
inductive Instr where
  /-- `MW r, imm8` -/
  | mwImm (r : Reg) (imm : Byte)
  /-- `MW r, s` -/
  | mwReg (r s : Reg)
  /-- `LW r, [imm16]` -/
  | lwAbs (r : Reg) (addr : Addr)
  /-- `LW r, [H:L]` -/
  | lwInd (r : Reg)
  /-- `SW [imm16], r` -/
  | swAbs (addr : Addr) (r : Reg)
  /-- `SW [H:L], r` -/
  | swInd (r : Reg)
  /-- `PUSH imm8` -/
  | pushImm (imm : Byte)
  /-- `PUSH r` -/
  | pushReg (r : Reg)
  /-- `POP r` -/
  | pop (r : Reg)
  /-- `LDA imm16` -/
  | lda (addr : Addr)
  /-- `JNZ imm8` -/
  | jnzImm (imm : Byte)
  /-- `JNZ r` -/
  | jnzReg (r : Reg)
  /-- `INB` -/
  | inb
  /-- `OUTB` -/
  | outb
  /-- `ADD r, imm8` -/
  | addImm (r : Reg) (imm : Byte)
  /-- `ADD r, s` -/
  | addReg (r s : Reg)
  /-- `ADC r, imm8` -/
  | adcImm (r : Reg) (imm : Byte)
  /-- `ADC r, s` -/
  | adcReg (r s : Reg)
  /-- `AND r, imm8` -/
  | andImm (r : Reg) (imm : Byte)
  /-- `AND r, s` -/
  | andReg (r s : Reg)
  /-- `OR r, imm8` -/
  | orImm (r : Reg) (imm : Byte)
  /-- `OR r, s` -/
  | orReg (r s : Reg)
  /-- `NOR r, imm8` -/
  | norImm (r : Reg) (imm : Byte)
  /-- `NOR r, s` -/
  | norReg (r s : Reg)
  /-- `CMP r, imm8` -/
  | cmpImm (r : Reg) (imm : Byte)
  /-- `CMP r, s` -/
  | cmpReg (r s : Reg)
  /-- `SBB r, imm8` -/
  | sbbImm (r : Reg) (imm : Byte)
  /-- `SBB r, s` -/
  | sbbReg (r s : Reg)
  deriving DecidableEq, Repr

end Sys2Proof
end

