-- ==== Sys2Proof/Machine/Bits.lean ====
section
/-! DEFINITION. Bit and byte helpers of the notation (00_scope.md R9) and register indices (10_state.md R20). -/

namespace Sys2Proof

/-- `hi:lo`, the 16-bit value `(hi << 8) | lo` (R9). -/
def pair (hi lo : Byte) : Addr := hi ++ lo

/-- `v[15:8]` (R9). -/
def hiByte (v : Addr) : Byte := v.extractLsb' 8 8

/-- `v[7:0]` (R9). -/
def loByte (v : Addr) : Byte := v.extractLsb' 0 8

/-- Bit `i` of `v` as 0 or 1 (R9, 42_arithmetic_logic.md opening). -/
def bitValue (v : Byte) (i : Nat) : Byte := if v.getLsbD i then 1 else 0

/-- `v[i] <- c`: bit `i` becomes 1 if `c` holds and 0 otherwise, every other bit stays
(42_arithmetic_logic.md opening). -/
def setBit (v : Byte) (i : Nat) (c : Bool) : Byte :=
  if c then v ||| (1#8 <<< i) else v &&& ~~~(1#8 <<< i)

/-- The 3-bit index of a register (R20). -/
def Reg.index : Reg → BitVec 3
  | .a => 0 | .b => 1 | .c => 2 | .d => 3 | .l => 4 | .h => 5 | .z => 6 | .f => 7

/-- The register that a 3-bit index names (R20). -/
def Reg.ofIndex (i : BitVec 3) : Reg :=
  match i.toNat with
  | 0 => .a | 1 => .b | 2 => .c | 3 => .d | 4 => .l | 5 => .h | 6 => .z | _ => .f

end Sys2Proof
end

