-- ==== Sys2Proof/Config.lean ====
section
/-! DEFINITION. The two parameters that select among behaviours the source leaves open (00_scope.md R5).
The third, REG_RESET, is the argument of `State.construct`. Their default values stand in
Machine/Params.lean. -/

namespace Sys2Proof

/-- `REG_OPERAND` (R5): what a register-form operand of PUSH, JNZ and the seven ALU instructions yields. -/
inductive RegOperand where
  /-- The 3-bit register index itself: the reference behaviour. -/
  | index
  /-- The register's contents: the likely-intended behaviour. -/
  | contents
  deriving DecidableEq, Repr

/-- `FLAGS_VARIANT` (R5): which conditions FlagsALU leaves in F. -/
inductive FlagsVariant where
  /-- LESS, and EQUAL overwritten twice: the reference behaviour. -/
  | reference
  /-- LESS, EQUAL, CARRY and BORROW, each from its own condition. -/
  | intended
  deriving DecidableEq, Repr

/-- The parameters of one machine; no step changes them (log 2). -/
structure Params where
  regOperand   : RegOperand
  flagsVariant : FlagsVariant
  deriving DecidableEq, Repr

end Sys2Proof
end

