-- ==== Sys2Proof/Machine/Params.lean ====
section
/-! DEFINITION. The values the parameters have in `State.reset` (00_scope.md R5). -/

namespace Sys2Proof

/-- The spec's defaults: `REG_OPERAND = index`, `FLAGS_VARIANT = reference` (R5). -/
def defaultParams : Params := ⟨.index, .reference⟩

/-- The one value of every register in `State.reset`. DESIGN CHOICE (log 3, unsafe): REG_RESET is OPEN in the
spec (10_state.md R38); `State.construct` takes any. -/
def regResetByte : Byte := 0

end Sys2Proof
end

