-- ==== Sys2Proof/Machine/State.lean ====
section
/-! DEFINITION. The state of the machine (10_state.md), the reasons a step can stop, and the state after
construction. PC, SP and MB are cells of memory and stand nowhere else (R31 to R34). -/

namespace Sys2Proof.Machine

/-- The register file: eight 8-bit registers (R20). -/
structure RegFile where
  a : Byte
  b : Byte
  c : Byte
  d : Byte
  l : Byte
  h : Byte
  z : Byte
  f : Byte
  deriving DecidableEq, Repr

/-- The StatusFlags: four booleans outside memory and outside the register file (R28). -/
structure StatusFlags where
  unused : Bool
  error  : Bool
  power  : Bool
  halt   : Bool
  deriving DecidableEq, Repr

/-- Memory: the cells whose contents differ from what construction put there, by rising address. What an
unlisted cell reads as is `Memory.initial`; `Memory.wf` is the canonical form (Machine/Ops.lean). -/
abbrev Memory := List Host.Cell

/-- The state: memory (with the PC, SP and MB cells in it), the register file, the StatusFlags
(10_state.md opening), and the parameters of R5 as plain data that no step changes (log 2). -/
structure State where
  regs   : RegFile
  mem    : Memory
  status : StatusFlags
  params : Params
  deriving DecidableEq, Repr

/-- Why the machine takes no step. The core raises no exception of any kind (60_exceptions.md R190). -/
inductive Fault where
  /-- Outcome `Stopped` (R14, R214): POWER is false, ERROR is true or HALT is true, so no step is taken and
  the state stays exactly as it is. Raised by `step` alone. Safe (log 6): it claims no next state. -/
  | stopped
  deriving DecidableEq, Repr

/-- Why an instruction has no meaning in this model. -/
inductive Refusal where
  /-- The instruction has no meaning yet. Raised by no arm: every row of the opcode table is modelled.
  Safe: it claims no next state. -/
  | notModelled (mnemonic : String)
  deriving DecidableEq, Repr

/-- The outcome of an instruction of this core. -/
abbrev Result := Host.Outcome State Fault Refusal

/-- The state at construction (R38, 70_reset_and_hazards.md R210) for one `REG_RESET` and one setting of the
other parameters. Memory lists nothing, so every cell reads as R38 says. The StatusFlags are not stated
before the first `load`; all false, so that no step can happen before it. DESIGN CHOICE (log 4, unsafe). -/
def State.construct (regReset : Reg → Byte) (params : Params) : State where
  regs := ⟨regReset .a, regReset .b, regReset .c, regReset .d,
    regReset .l, regReset .h, regReset .z, regReset .f⟩
  mem := []
  status := ⟨false, false, false, false⟩
  params := params

/-- The machine right after construction, with the spec's default parameters and every register at the
value that log 3 names. DESIGN CHOICE (log 3, unsafe). -/
def State.reset : State := State.construct (fun _ => regResetByte) defaultParams

end Sys2Proof.Machine
end

