-- ==== Sys2Proof/Machine/Ops.lean ====
section
/-! DEFINITION. The named operations over memory and registers (00_scope.md R10 to R12, 20_memory.md). The core
takes no exception and has no return from one (60_exceptions.md R190, R194, R195), so there is no such
operation here. -/

namespace Sys2Proof.Machine

/-! ## Memory -/

/-- What an unlisted cell reads as: the contents at construction, 0 everywhere but the SP pair 0xFEFF
(10_state.md R38). -/
def Memory.initial (a : Nat) : Byte :=
  if a = 0xFFFC then 0xFE else if a = 0xFFFD then 0xFF else 0x00

/-- The byte of a cell. -/
def Memory.read : Memory → Nat → Byte
  | [], a => Memory.initial a
  | (x, b) :: m, a => if x = a then b else Memory.read m a

/-- Put a cell before the first cell of a higher address. -/
def Memory.insertCell (a : Nat) (v : Byte) : Memory → Memory
  | [] => [(a, v)]
  | (x, b) :: m => if a < x then (a, v) :: (x, b) :: m else (x, b) :: Memory.insertCell a v m

/-- The cells of every other address. -/
def Memory.eraseCell (m : Memory) (a : Nat) : Memory := m.filter (fun cell => cell.1 != a)

/-- Set one cell, keeping the canonical form: a cell that holds its construction value is not listed. -/
def Memory.write (m : Memory) (a : Nat) (v : Byte) : Memory :=
  if v = Memory.initial a then m.eraseCell a else Memory.insertCell a v (m.eraseCell a)

/-- The canonical form: addresses strictly rising and inside the address space, no cell listed that holds
its construction value. -/
abbrev Memory.wf (m : Memory) : Prop :=
  m.Pairwise (fun c d => c.1 < d.1) ∧ ∀ c ∈ m, c.1 < 65536 ∧ c.2 ≠ Memory.initial c.1

/-- `MemRead(addr, 1)` (R11): total, no side effect (20_memory.md R52, R60). -/
def State.memRead (s : State) (a : Addr) : Byte := s.mem.read a.toNat

/-- `MemWrite(addr, 1, v)` (R11): total (20_memory.md R52). -/
def State.memWrite (s : State) (a : Addr) (v : Byte) : State :=
  { s with mem := s.mem.write a.toNat v }

/-! ## Registers -/

/-- Register `r` of a register file. -/
def RegFile.get (f : RegFile) : Reg → Byte
  | .a => f.a | .b => f.b | .c => f.c | .d => f.d
  | .l => f.l | .h => f.h | .z => f.z | .f => f.f

/-- A register file with register `r` replaced whole (10_state.md R21). -/
def RegFile.set (f : RegFile) (r : Reg) (v : Byte) : RegFile :=
  match r with
  | .a => { f with a := v } | .b => { f with b := v } | .c => { f with c := v } | .d => { f with d := v }
  | .l => { f with l := v } | .h => { f with h := v } | .z => { f with z := v } | .f => { f with f := v }

/-- `x[r]` (R10). -/
def State.reg (s : State) (r : Reg) : Byte := s.regs.get r

/-- `x[r] <- v` (R10): no register is hardwired or read-only (10_state.md R21). -/
def State.setReg (s : State) (r : Reg) (v : Byte) : State := { s with regs := s.regs.set r v }

/-- `HL() = x[5]:x[4]` (R10, 10_state.md R23). -/
def State.hl (s : State) : Addr := pair (s.reg .h) (s.reg .l)

/-! ## The memory-mapped PC and SP (R12, 10_state.md R31 to R37) -/

/-- MB, the memory bank selector cell; it selects nothing (10_state.md R34). -/
def mbCell : Addr := 0xFFFA
/-- SPH. -/
def sphCell : Addr := 0xFFFC
/-- SPL. -/
def splCell : Addr := 0xFFFD
/-- PCH. -/
def pchCell : Addr := 0xFFFE
/-- PCL. -/
def pclCell : Addr := 0xFFFF

/-- `PC()`, read from its cells now (R12). -/
def State.pc (s : State) : Addr := pair (s.memRead pchCell) (s.memRead pclCell)

/-- `SP()`, read from its cells now (R12). -/
def State.sp (s : State) : Addr := pair (s.memRead sphCell) (s.memRead splCell)

/-- `Inc16(h, l)` (R12, 10_state.md R36). -/
def State.inc16 (h l : Addr) (s : State) : State :=
  let lo := s.memRead l + 1
  let s := s.memWrite l lo
  if lo = 0 then s.memWrite h (s.memRead h + 1) else s

/-- `Dec16(h, l)` (R12, 10_state.md R37). Adding 255 is subtracting 1 mod 256. -/
def State.dec16 (h l : Addr) (s : State) : State :=
  let lo0 := s.memRead l
  let s := s.memWrite l (lo0 + 255)
  if lo0 = 0 then s.memWrite h (s.memRead h + 255) else s

/-- `IncPC()` (R12). -/
def State.incPC (s : State) : State := s.inc16 pchCell pclCell

/-- `IncSP()` (R12). -/
def State.incSP (s : State) : State := s.inc16 sphCell splCell

/-- `DecSP()` (R12). -/
def State.decSP (s : State) : State := s.dec16 sphCell splCell

/-- `pc <- t` (R12): PCH first, then PCL. -/
def State.setPC (t : Addr) (s : State) : State :=
  (s.memWrite pchCell (hiByte t)).memWrite pclCell (loByte t)

/-! ## StatusFlags -/

/-- `Running(state) = POWER and not ERROR and not HALT` (10_state.md R29). -/
def State.running (s : State) : Bool := s.status.power && !s.status.error && !s.status.halt

end Sys2Proof.Machine
end

