-- ==== Sys2Proof/Machine/Flags.lean ====
section
/-! DEFINITION. FlagsALU (42_arithmetic_logic.md R150). -/

namespace Sys2Proof.Machine

/-- `Flags(a, b)` as the value it leaves in F, from the value `f` it finds there. Every comparison is on the
unbounded integers; each assignment is of one bit, in the order R150 lists (decisions D3, D4; log 12). -/
def flagsALU (variant : FlagsVariant) (a b f : Byte) : Byte :=
  let less := decide (a.toNat < b.toNat)
  let equal := decide (a.toNat = b.toNat)
  let carry := decide (a.toNat + b.toNat > 255)
  match variant with
  | .reference =>
    let f := setBit f 0 less
    let f := setBit f 1 equal
    let f := setBit f 1 carry
    setBit f 1 less
  | .intended =>
    let f := setBit f 0 less
    let f := setBit f 1 equal
    let f := setBit f 2 carry
    setBit f 3 less

/-- `Flags(a, b)` (R150): F is register 7. -/
def State.flags (s : State) (a b : Byte) : State :=
  s.setReg .f (flagsALU s.params.flagsVariant a b (s.reg .f))

/-- CARRY, bit 2 of F, as 0 or 1 (10_state.md R25). -/
def State.carry (s : State) : Byte := bitValue (s.reg .f) 2

/-- BORROW, bit 3 of F, as 0 or 1 (10_state.md R25). -/
def State.borrow (s : State) : Byte := bitValue (s.reg .f) 3

end Sys2Proof.Machine
end

