-- ==== Sys2Proof/WellFormed.lean ====
section
/-! DEFINITION. Well-formed terms. An instruction's operands are typed by what their fields can hold
(a register is one of eight, a literal one of 256 or of 65,536), so every `Instr` is encodable and the
check on an instruction has nothing left to refuse. What the spec does restrict is the program that the
host may load: 1 to 65,536 bytes (70_reset_and_hazards.md R211). -/

namespace Sys2Proof

/-- Every value of every operand field of every row is legal (30_encoding.md R82, R85), and the types of
the fields admit no other value. -/
def Instr.wellFormed : Instr → Bool
  | .mwImm _ _ | .mwReg _ _ | .lwAbs _ _ | .lwInd _ | .swAbs _ _ | .swInd _ | .pushImm _ | .pushReg _
  | .pop _ | .lda _ | .jnzImm _ | .jnzReg _ | .inb | .outb
  | .addImm _ _ | .addReg _ _ | .adcImm _ _ | .adcReg _ _ | .andImm _ _ | .andReg _ _
  | .orImm _ _ | .orReg _ _ | .norImm _ _ | .norReg _ _ | .cmpImm _ _ | .cmpReg _ _
  | .sbbImm _ _ | .sbbReg _ _ => true

/-- A program the host may load has `1 <= n <= 65536` bytes (R211). -/
def programWellFormed (program : List Byte) : Bool :=
  1 ≤ program.length && program.length ≤ 65536

end Sys2Proof
end

