-- ==== Sys2Proof/Decode.lean ====
section
/-! DEFINITION. The decoder and, after it, the encoder (30_encoding.md R80 to R87, R97). -/

namespace Sys2Proof

/-! ## The opcode byte -/

/-- `label(byte) = byte >> 4` (R81). -/
def label (b0 : Byte) : BitVec 4 := (b0 >>> 4).setWidth 4

/-- `isRegisterOperand(byte) = (byte & 0b00001000) != 0` (R81). -/
def isRegisterOperand (b0 : Byte) : Bool := (b0 &&& 0b00001000#8) != 0

/-- `registerIndex(byte) = byte & 0b00000111` (R81). -/
def registerIndex (b : Byte) : BitVec 3 := (b &&& 0b00000111#8).setWidth 3

/-- The register that bits 2..0 of a byte name: the register field of an opcode byte, and the source
register of a specifier byte, whose bits 7..3 are ignored (R82). -/
def registerField (b : Byte) : Reg := Reg.ofIndex (registerIndex b)

/-- The opcode map, label 0 first, in one table so that another numbering can be substituted (R84).
PRESUMED for labels 1 to 15 by the spec itself (decision D1, log 1). -/
def opcodeMap : List Op :=
  [.mw, .lw, .sw, .push, .pop, .lda, .jnz, .inb, .outb, .add, .adc, .and, .or, .nor, .cmp, .sbb]

/-- The opcode of a label (R84). -/
def opOfLabel (l : BitVec 4) : Op := opcodeMap.getD l.toNat .mw

/-- The label of an opcode: its place in the opcode map (R84). -/
def labelOfOp (op : Op) : BitVec 4 := BitVec.ofNat 4 (opcodeMap.idxOf op)

/-- The format that op and R select (R83). -/
def formatOf : Op → Bool → Format
  | .mw, false => .oi     | .mw, true => .os
  | .lw, false => .oa     | .lw, true => .o
  | .sw, false => .oa     | .sw, true => .o
  | .push, false => .oi   | .push, true => .o
  | .pop, _ => .o
  | .lda, _ => .oa
  | .jnz, false => .oi    | .jnz, true => .o
  | .inb, _ => .o
  | .outb, _ => .o
  | .add, false => .oi    | .add, true => .os
  | .adc, false => .oi    | .adc, true => .os
  | .and, false => .oi    | .and, true => .os
  | .or, false => .oi     | .or, true => .os
  | .nor, false => .oi    | .nor, true => .os
  | .cmp, false => .oi    | .cmp, true => .os
  | .sbb, false => .oi    | .sbb, true => .os

/-- How many bytes follow the opcode byte in a format (R82). -/
def operandCount : Format → Nat
  | .o => 0 | .oi => 1 | .os => 1 | .oa => 2

/-- How many bytes follow an opcode byte: known from that byte alone (R87). -/
def operandBytes (b0 : Byte) : Nat :=
  operandCount (formatOf (opOfLabel (label b0)) (isRegisterOperand b0))

/-! ## Decoding -/

/-- The instruction with opcode byte `b0` whose operand bytes, as far as its format has them, are `b1` and
`b2`. Total: "no invalid-opcode case exists" (R85). The bits of R86 are read by no arm. -/
def decodeBytes (b0 b1 b2 : Byte) : Instr :=
  match opOfLabel (label b0), isRegisterOperand b0 with
  | .mw, false => .mwImm (registerField b0) b1
  | .mw, true => .mwReg (registerField b0) (registerField b1)
  | .lw, false => .lwAbs (registerField b0) (pair b1 b2)
  | .lw, true => .lwInd (registerField b0)
  | .sw, false => .swAbs (pair b1 b2) (registerField b0)
  | .sw, true => .swInd (registerField b0)
  | .push, false => .pushImm b1
  | .push, true => .pushReg (registerField b0)
  | .pop, _ => .pop (registerField b0)
  | .lda, _ => .lda (pair b1 b2)
  | .jnz, false => .jnzImm b1
  | .jnz, true => .jnzReg (registerField b0)
  | .inb, _ => .inb
  | .outb, _ => .outb
  | .add, false => .addImm (registerField b0) b1
  | .add, true => .addReg (registerField b0) (registerField b1)
  | .adc, false => .adcImm (registerField b0) b1
  | .adc, true => .adcReg (registerField b0) (registerField b1)
  | .and, false => .andImm (registerField b0) b1
  | .and, true => .andReg (registerField b0) (registerField b1)
  | .or, false => .orImm (registerField b0) b1
  | .or, true => .orReg (registerField b0) (registerField b1)
  | .nor, false => .norImm (registerField b0) b1
  | .nor, true => .norReg (registerField b0) (registerField b1)
  | .cmp, false => .cmpImm (registerField b0) b1
  | .cmp, true => .cmpReg (registerField b0) (registerField b1)
  | .sbb, false => .sbbImm (registerField b0) b1
  | .sbb, true => .sbbReg (registerField b0) (registerField b1)

/-- Why a list of bytes is no instruction: the list is too short. No byte value is illegal (R85). -/
inductive DecodeError where
  /-- The list is empty. -/
  | noBytes
  /-- The list ends before the operand bytes that the first byte asks for. -/
  | missingOperandBytes
  deriving DecidableEq, Repr

/-- The instruction at the head of a byte list, with the bytes after it. -/
def decode : List Byte → Except DecodeError (Instr × List Byte)
  | [] => .error .noBytes
  | b0 :: rest =>
    if rest.length < operandBytes b0 then .error .missingOperandBytes
    else .ok (decodeBytes b0 (rest.getD 0 0) (rest.getD 1 0), rest.drop (operandBytes b0))

/-- The bytes that an opcode-table word stands for: the first byte is the word's least significant byte, bits
above `nbits` are 0, and three bytes are the longest instruction. The table gives INB and OUTB the length 0
(they consume nothing); their opcode byte is a byte all the same. -/
def tableBytes (nbits w : Nat) : List Byte :=
  let v := w % 2 ^ max nbits 8
  [BitVec.ofNat 8 v, BitVec.ofNat 8 (v / 256), BitVec.ofNat 8 (v / 65536)]

/-- The instruction the decoder reads from an opcode-table word. -/
def decodeTableWord (nbits w : Nat) : Option Instr :=
  match decode (tableBytes nbits w) with
  | .ok (i, _) => some i
  | .error _ => none

/-! ## Encoding -/

/-- The opcode byte `op R r` (R80). -/
def opcodeByte (op : Op) (R : Bool) (r : Reg) : Byte :=
  (labelOfOp op ++ BitVec.ofBool R) ++ r.index

/-- The register specifier byte: the index in bits 2..0, zero in the ignored bits (R82, R86). -/
def specifierByte (s : Reg) : Byte := s.index.setWidth 8

/-- The bytes of an instruction, zero in every ignored field (R86, R97). -/
def encode : Instr → List Byte
  | .mwImm r imm => [opcodeByte .mw false r, imm]
  | .mwReg r s => [opcodeByte .mw true r, specifierByte s]
  | .lwAbs r addr => [opcodeByte .lw false r, hiByte addr, loByte addr]
  | .lwInd r => [opcodeByte .lw true r]
  | .swAbs addr r => [opcodeByte .sw false r, hiByte addr, loByte addr]
  | .swInd r => [opcodeByte .sw true r]
  | .pushImm imm => [opcodeByte .push false .a, imm]
  | .pushReg r => [opcodeByte .push true r]
  | .pop r => [opcodeByte .pop false r]
  | .lda addr => [opcodeByte .lda false .a, hiByte addr, loByte addr]
  | .jnzImm imm => [opcodeByte .jnz false .a, imm]
  | .jnzReg r => [opcodeByte .jnz true r]
  | .inb => [opcodeByte .inb false .a]
  | .outb => [opcodeByte .outb false .a]
  | .addImm r imm => [opcodeByte .add false r, imm]
  | .addReg r s => [opcodeByte .add true r, specifierByte s]
  | .adcImm r imm => [opcodeByte .adc false r, imm]
  | .adcReg r s => [opcodeByte .adc true r, specifierByte s]
  | .andImm r imm => [opcodeByte .and false r, imm]
  | .andReg r s => [opcodeByte .and true r, specifierByte s]
  | .orImm r imm => [opcodeByte .or false r, imm]
  | .orReg r s => [opcodeByte .or true r, specifierByte s]
  | .norImm r imm => [opcodeByte .nor false r, imm]
  | .norReg r s => [opcodeByte .nor true r, specifierByte s]
  | .cmpImm r imm => [opcodeByte .cmp false r, imm]
  | .cmpReg r s => [opcodeByte .cmp true r, specifierByte s]
  | .sbbImm r imm => [opcodeByte .sbb false r, imm]
  | .sbbReg r s => [opcodeByte .sbb true r, specifierByte s]

/-- How many bytes an instruction occupies (R83; INB and OUTB occupy their opcode byte although a step of
theirs consumes none). -/
def Instr.length : Instr → Nat
  | .mwImm _ _ | .mwReg _ _ | .pushImm _ | .jnzImm _
  | .addImm _ _ | .addReg _ _ | .adcImm _ _ | .adcReg _ _ | .andImm _ _ | .andReg _ _
  | .orImm _ _ | .orReg _ _ | .norImm _ _ | .norReg _ _ | .cmpImm _ _ | .cmpReg _ _
  | .sbbImm _ _ | .sbbReg _ _ => 2
  | .lwAbs _ _ | .swAbs _ _ | .lda _ => 3
  | .lwInd _ | .swInd _ | .pushReg _ | .pop _ | .jnzReg _ | .inb | .outb => 1

/-- The bits of an opcode byte that R86 says are read by no rule. -/
def ignoredOpcodeBits (b0 : Byte) : Byte :=
  match opOfLabel (label b0), isRegisterOperand b0 with
  | .push, false => 0x07
  | .jnz, false => 0x07
  | .pop, _ => 0x08
  | .lda, _ => 0x0F
  | .inb, _ => 0x0F
  | .outb, _ => 0x0F
  | .push, true | .jnz, true => 0x00
  | .mw, _ | .lw, _ | .sw, _ | .add, _ | .adc, _ | .and, _ | .or, _ | .nor, _ | .cmp, _ | .sbb, _ => 0x00

/-- The bits of the byte after the opcode byte that R86 says are read by no rule: bits 7..3 of a register
specifier byte. -/
def ignoredOperandBits (b0 : Byte) : Byte :=
  match formatOf (opOfLabel (label b0)) (isRegisterOperand b0) with
  | .os => 0xF8
  | .o | .oi | .oa => 0x00

end Sys2Proof
end

