-- ==== Sys2Proof/Machine/Operands.lean ====
section
/-! DEFINITION. Operand fetch and operand resolution (30_encoding.md R88 to R92). -/

namespace Sys2Proof.Machine

/-! ## Fetching -/

/-- The state after `n` calls of `Fetch()`: each increments PC and reads the cell PC then points to (R88). -/
def State.afterFetch : Nat → State → State
  | 0, s => s
  | n + 1, s => State.afterFetch n s.incPC

/-- The byte the `n`-th `Fetch()` of a step returns, `n = 0` standing for the opcode byte `MemRead(PC(), 1)`
(R88, R93). The PC cells themselves are read as `IncPC` has left them (log 10). -/
def State.fetchedByte (s : State) (n : Nat) : Byte :=
  (s.afterFetch n).memRead (s.afterFetch n).pc

/-- The opcode byte at PC and the two bytes that `Fetch()` returns after it, if called. -/
def State.fetchedBytes (s : State) : List Byte := [s.fetchedByte 0, s.fetchedByte 1, s.fetchedByte 2]

/-- The instruction at PC. A byte past the instruction's own format is used by no arm of the decoder, and
reading it has no effect (20_memory.md R60). -/
def State.fetchedInstr (s : State) : Instr :=
  decodeBytes (s.fetchedByte 0) (s.fetchedByte 1) (s.fetchedByte 2)

/-! ## Resolution -/

/-- `Val(i)` (R89): the register's index as an 8-bit value, or its contents, by `REG_OPERAND`. -/
def State.val (s : State) (r : Reg) : Byte :=
  match s.params.regOperand with
  | .index => r.index.setWidth 8
  | .contents => s.reg r

/-- The second operand of an instruction in format OI or OS. -/
inductive Operand where
  /-- The literal byte. -/
  | imm (v : Byte)
  /-- The register that the specifier byte names. -/
  | reg (s : Reg)
  deriving DecidableEq, Repr

/-- What `RegOrImm2()` yields once its byte is fetched (R91). -/
def State.operandValue (s : State) : Operand → Byte
  | .imm v => v
  | .reg q => s.val q

end Sys2Proof.Machine
end

