-- ==== Sys2Proof/Machine/ArithLogic.lean ====
section
/-! DEFINITION. ADD, ADC, AND, OR, NOR, CMP, SBB (42_arithmetic_logic.md). In each operation the operands and the
carry-in or borrow-in are read before FlagsALU writes F, and the result is written after it (R152). -/

namespace Sys2Proof.Machine

/-- ADD (R153). -/
def State.add1 (r : Reg) (operand : Operand) (s : State) : State :=
  let s := s.afterFetch 1
  let b := s.operandValue operand
  let a := s.reg r
  ((s.flags a b).setReg r (a + b)).incPC

/-- ADC (R154): the carry-in is no input of FlagsALU. -/
def State.adc1 (r : Reg) (operand : Operand) (s : State) : State :=
  let s := s.afterFetch 1
  let b := s.operandValue operand
  let a := s.reg r
  let c := s.carry
  ((s.flags a b).setReg r (a + b + c)).incPC

/-- SBB (R159): the borrow bit is ADDED, as the source states. -/
def State.sbb1 (r : Reg) (operand : Operand) (s : State) : State :=
  let s := s.afterFetch 1
  let b := s.operandValue operand
  let a := s.reg r
  let w := s.borrow
  ((s.flags a b).setReg r (a + w - b)).incPC

/-- CMP (R158): `x[r]` is not written, unless it is F, whose flag bits FlagsALU writes. -/
def State.cmp1 (r : Reg) (operand : Operand) (s : State) : State :=
  let s := s.afterFetch 1
  let b := s.operandValue operand
  let a := s.reg r
  (s.flags a b).incPC

/-- The shape of AND, OR and NOR (R155 to R157): no flag computation. -/
def State.logic1 (f : Byte → Byte → Byte) (r : Reg) (operand : Operand) (s : State) : State :=
  let s := s.afterFetch 1
  let b := s.operandValue operand
  let a := s.reg r
  (s.setReg r (f a b)).incPC

/-- AND (R155). -/
def State.and1 (r : Reg) (operand : Operand) (s : State) : State :=
  s.logic1 (fun a b => a &&& b) r operand

/-- OR (R156). -/
def State.or1 (r : Reg) (operand : Operand) (s : State) : State :=
  s.logic1 (fun a b => a ||| b) r operand

/-- NOR (R157). -/
def State.nor1 (r : Reg) (operand : Operand) (s : State) : State :=
  s.logic1 (fun a b => ~~~(a ||| b)) r operand

/-- ADD, immediate form (R153). -/
def execAddImm (r : Reg) (imm : Byte) (s : State) : Result := .next (s.add1 r (.imm imm))
/-- ADD, register form (R153). -/
def execAddReg (r q : Reg) (s : State) : Result := .next (s.add1 r (.reg q))
/-- ADC, immediate form (R154). -/
def execAdcImm (r : Reg) (imm : Byte) (s : State) : Result := .next (s.adc1 r (.imm imm))
/-- ADC, register form (R154). -/
def execAdcReg (r q : Reg) (s : State) : Result := .next (s.adc1 r (.reg q))
/-- AND, immediate form (R155). -/
def execAndImm (r : Reg) (imm : Byte) (s : State) : Result := .next (s.and1 r (.imm imm))
/-- AND, register form (R155). -/
def execAndReg (r q : Reg) (s : State) : Result := .next (s.and1 r (.reg q))
/-- OR, immediate form (R156). -/
def execOrImm (r : Reg) (imm : Byte) (s : State) : Result := .next (s.or1 r (.imm imm))
/-- OR, register form (R156). -/
def execOrReg (r q : Reg) (s : State) : Result := .next (s.or1 r (.reg q))
/-- NOR, immediate form (R157). -/
def execNorImm (r : Reg) (imm : Byte) (s : State) : Result := .next (s.nor1 r (.imm imm))
/-- NOR, register form (R157). -/
def execNorReg (r q : Reg) (s : State) : Result := .next (s.nor1 r (.reg q))
/-- CMP, immediate form (R158). -/
def execCmpImm (r : Reg) (imm : Byte) (s : State) : Result := .next (s.cmp1 r (.imm imm))
/-- CMP, register form (R158). -/
def execCmpReg (r q : Reg) (s : State) : Result := .next (s.cmp1 r (.reg q))
/-- SBB, immediate form (R159). -/
def execSbbImm (r : Reg) (imm : Byte) (s : State) : Result := .next (s.sbb1 r (.imm imm))
/-- SBB, register form (R159). -/
def execSbbReg (r q : Reg) (s : State) : Result := .next (s.sbb1 r (.reg q))

end Sys2Proof.Machine
end

