-- ==== Sys2Proof/Machine/ControlFlow.lean ====
section
/-! DEFINITION. JNZ, the only control transfer (41_control_flow.md). -/

namespace Sys2Proof.Machine

/-- The effect JNZ has once its operand is known (R140): `pc <- HL()` and no IncPC when it is not zero. -/
def State.jumpIfNotZero (v : Byte) (s : State) : State :=
  if v ≠ 0 then s.setPC s.hl else s.incPC

/-- JNZ, immediate form (R140). -/
def execJnzImm (imm : Byte) (s : State) : Result :=
  .next ((s.afterFetch 1).jumpIfNotZero imm)

/-- JNZ, register form (R140): the operand is `Val(r)`, nothing is fetched (R90). -/
def execJnzReg (r : Reg) (s : State) : Result :=
  .next (s.jumpIfNotZero (s.val r))

end Sys2Proof.Machine
end

