-- ==== Sys2Proof/Machine/DataMovement.lean ====
section
/-! DEFINITION. MW, LW, SW, LDA, PUSH, POP (40_data_movement.md). Each meaning takes the state at the
instruction's first byte and follows its rule's pseudocode: operand fetches, effect, final IncPC (R93). -/

namespace Sys2Proof.Machine

/-- MW, immediate form (R110). -/
def execMwImm (r : Reg) (imm : Byte) (s : State) : Result :=
  let s := s.afterFetch 1
  .next (s.setReg r imm).incPC

/-- MW, register form (R110): contents, whatever `REG_OPERAND` is. -/
def execMwReg (r q : Reg) (s : State) : Result :=
  let s := s.afterFetch 1
  .next (s.setReg r (s.reg q)).incPC

/-- The effect LW has once its address is known (R111). -/
def State.load1 (r : Reg) (a : Addr) (s : State) : State :=
  (s.setReg r (s.memRead a)).incPC

/-- LW, absolute form (R111). -/
def execLwAbs (r : Reg) (addr : Addr) (s : State) : Result :=
  .next ((s.afterFetch 2).load1 r addr)

/-- LW, H:L form (R111). -/
def execLwInd (r : Reg) (s : State) : Result :=
  .next (s.load1 r s.hl)

/-- The effect SW has once its address is known (R112): the store comes before the final IncPC. -/
def State.store1 (a : Addr) (r : Reg) (s : State) : State :=
  (s.memWrite a (s.reg r)).incPC

/-- SW, absolute form (R112). -/
def execSwAbs (addr : Addr) (r : Reg) (s : State) : Result :=
  .next ((s.afterFetch 2).store1 addr r)

/-- SW, H:L form (R112). -/
def execSwInd (r : Reg) (s : State) : Result :=
  .next (s.store1 s.hl r)

/-- LDA (R113). -/
def execLda (addr : Addr) (s : State) : Result :=
  let s := s.afterFetch 2
  .next ((s.setReg .h (hiByte addr)).setReg .l (loByte addr)).incPC

/-- The effect PUSH has once its value is known (R114): write at SP, then DecSP, then IncPC, each reading its
pair's cells as the one before left them. -/
def State.push1 (v : Byte) (s : State) : State :=
  ((s.memWrite s.sp v).decSP).incPC

/-- PUSH, immediate form (R114). -/
def execPushImm (imm : Byte) (s : State) : Result :=
  .next ((s.afterFetch 1).push1 imm)

/-- PUSH, register form (R114): the operand is `Val(r)`, nothing is fetched (R90). -/
def execPushReg (r : Reg) (s : State) : Result :=
  .next (s.push1 (s.val r))

/-- POP (R115). -/
def execPop (r : Reg) (s : State) : Result :=
  let s := s.incSP
  .next (s.setReg r (s.memRead s.sp)).incPC

end Sys2Proof.Machine
end

