-- ==== Sys2Proof/Machine/Io.lean ====
section
/-! DEFINITION. INB and OUTB (43_io.md): outcome `Stalled`, the state after the step equals the state before it,
PC included. A hang, not a no-op that advances and not a halt (R182; log 7). -/

namespace Sys2Proof.Machine

/-- INB (R180): "no operand consumption, no state mutation, no program-counter advance". -/
def execInb (s : State) : Result := .next s

/-- OUTB (R181): the same. -/
def execOutb (s : State) : Result := .next s

end Sys2Proof.Machine
end

