-- ==== Sys2Proof/Machine/Dispatch.lean ====
section
/-! DEFINITION. One arm per constructor of Instr (30_encoding.md R94). -/

namespace Sys2Proof.Machine

def exec (i : Instr) (s : State) : Host.Outcome State Fault Refusal :=
  match i with
  | .mwImm r imm => Sys2Proof.Machine.execMwImm r imm s
  | .mwReg r q => Sys2Proof.Machine.execMwReg r q s
  | .lwAbs r addr => Sys2Proof.Machine.execLwAbs r addr s
  | .lwInd r => Sys2Proof.Machine.execLwInd r s
  | .swAbs addr r => Sys2Proof.Machine.execSwAbs addr r s
  | .swInd r => Sys2Proof.Machine.execSwInd r s
  | .pushImm imm => Sys2Proof.Machine.execPushImm imm s
  | .pushReg r => Sys2Proof.Machine.execPushReg r s
  | .pop r => Sys2Proof.Machine.execPop r s
  | .lda addr => Sys2Proof.Machine.execLda addr s
  | .jnzImm imm => Sys2Proof.Machine.execJnzImm imm s
  | .jnzReg r => Sys2Proof.Machine.execJnzReg r s
  | .inb => Sys2Proof.Machine.execInb s
  | .outb => Sys2Proof.Machine.execOutb s
  | .addImm r imm => Sys2Proof.Machine.execAddImm r imm s
  | .addReg r q => Sys2Proof.Machine.execAddReg r q s
  | .adcImm r imm => Sys2Proof.Machine.execAdcImm r imm s
  | .adcReg r q => Sys2Proof.Machine.execAdcReg r q s
  | .andImm r imm => Sys2Proof.Machine.execAndImm r imm s
  | .andReg r q => Sys2Proof.Machine.execAndReg r q s
  | .orImm r imm => Sys2Proof.Machine.execOrImm r imm s
  | .orReg r q => Sys2Proof.Machine.execOrReg r q s
  | .norImm r imm => Sys2Proof.Machine.execNorImm r imm s
  | .norReg r q => Sys2Proof.Machine.execNorReg r q s
  | .cmpImm r imm => Sys2Proof.Machine.execCmpImm r imm s
  | .cmpReg r q => Sys2Proof.Machine.execCmpReg r q s
  | .sbbImm r imm => Sys2Proof.Machine.execSbbImm r imm s
  | .sbbReg r q => Sys2Proof.Machine.execSbbReg r q s

end Sys2Proof.Machine
end

