-- ==== Sys2Proof/Machine/Load.lean ====
section
/-! DEFINITION. The host's `load` (70_reset_and_hazards.md R211) up to the point where it enters the run loop,
which is `runLoop` in Machine/Run.lean. -/

namespace Sys2Proof.Machine

/-- Byte `i` of the program goes to `(offset + i) mod 65536`, in order (R211, decision D12). -/
def State.placeBytes : List Byte → Addr → State → State
  | [], _, s => s
  | b :: bs, a, s => State.placeBytes bs (a + 1) (s.memWrite a b)

/-- `load` clears all four StatusFlags and then sets POWER (R211). -/
def State.powerOn (s : State) : State :=
  let s := { s with status := ⟨false, false, false, false⟩ }
  { s with status := { s.status with power := true } }

/-- `load(program, offset)` before its loop (R211); it sets neither PC nor SP (R212). `none` for a program
of no byte or of more than 65,536: R211 gives such a call no meaning (log 15). -/
def State.load (program : List Byte) (offset : Addr) (s : State) : Option State :=
  if programWellFormed program then some (State.placeBytes program offset s).powerOn else none

end Sys2Proof.Machine
end

