-- ==== Sys2Proof/Machine/Step.lean ====
section
/-! DEFINITION. One step of the core (30_encoding.md R93), and the placing of one instruction where it is
fetched next. -/

namespace Sys2Proof.Machine

/-- `Step(state)` (R93): `Stopped` when the core is not running (R214, log 6); otherwise the instruction that
the bytes at PC stand for. A meaning does its own operand fetches, so exec takes the state as it is at the
instruction's first byte (log 10). -/
def step (s : State) : Host.Outcome State Fault Refusal :=
  if s.running then exec s.fetchedInstr s else .fault .stopped

/-- `s` with an instruction placed at PC by the host as `load` places it: its bytes written from the address PC
holds, the StatusFlags cleared and POWER set (R211; log 5). -/
def State.withFetchWord (s : State) (nbits w : Nat) : State :=
  (State.placeBytes (tableBytes nbits w) s.pc s).powerOn

end Sys2Proof.Machine
end

