-- ==== Sys2Proof/Machine/Run.lean ====
section
/-! DEFINITION. The run loop (70_reset_and_hazards.md R213) and the host's whole `load` (R211). -/

namespace Sys2Proof.Machine

/-- `Run()` (R213) cut off after `n` iterations: the condition is checked before each one, and a state that is
not Running is left exactly as it is (R214). -/
def runLoop : Nat → State → State
  | 0, s => s
  | n + 1, s =>
    match step s with
    | .next t => runLoop n t
    | .fault _ => s
    | .refused _ => s

/-- `load(program, offset)` with `n` iterations of its loop (R211). -/
def State.loadAndRun (program : List Byte) (offset : Addr) (n : Nat) (s : State) : Option State :=
  (s.load program offset).map (runLoop n)

end Sys2Proof.Machine
end

