-- ==== Sys2Proof/Safety.lean ====
section
/-! DEFINITION. The terms claims are stated in: the invariant, what a change is confined to, the table of flag
effects, the registers R22 lists, and a stalled state. No execution of this core reaches an error state: the
spec has none (60_exceptions.md R190), so a safe run is a run whose memory stays canonical. -/

namespace Sys2Proof.Machine

/-- The invariant of the model: memory is in its canonical form, so that equal memories are equal lists. -/
abbrev State.Inv (s : State) : Prop := s.mem.wf

/-- The cells that hold the program counter (10_state.md R31). -/
def pcCells : List Addr := [pchCell, pclCell]

/-- The cells that hold the stack pointer (10_state.md R31). -/
def spCells : List Addr := [sphCell, splCell]

/-- From `s` to `t` no register outside `regs` changes, no cell outside `cells` changes, and neither do the
StatusFlags and the parameters. -/
structure OnlyChanges (s t : State) (regs : List Reg) (cells : List Addr) : Prop where
  regs   : ∀ q, q ∉ regs → t.reg q = s.reg q
  cells  : ∀ a, a ∉ cells → t.memRead a = s.memRead a
  status : t.status = s.status
  params : t.params = s.params

/-- The net effect of `Flags(a, b)` on F, from `f` to `f'`: the table of 42_arithmetic_logic.md R151, bit by bit. -/
def FlagsTable (variant : FlagsVariant) (a b f f' : Byte) : Prop :=
  (f'.getLsbD 0 = true ↔ a.toNat < b.toNat) ∧
  (match variant with
    | .reference =>
      (f'.getLsbD 1 = true ↔ a.toNat < b.toNat) ∧
      f'.getLsbD 2 = f.getLsbD 2 ∧ f'.getLsbD 3 = f.getLsbD 3
    | .intended =>
      (f'.getLsbD 1 = true ↔ a.toNat = b.toNat) ∧
      (f'.getLsbD 2 = true ↔ a.toNat + b.toNat > 255) ∧
      (f'.getLsbD 3 = true ↔ a.toNat < b.toNat)) ∧
  (∀ k, 4 ≤ k → f'.getLsbD k = f.getLsbD k)

/-- The length in bytes that the table of 30_encoding.md R83 gives for a label and R; INB and OUTB (labels 7 and
8) occupy their opcode byte. -/
def tableLength (b0 : Byte) : Nat :=
  match (label b0).toNat, isRegisterOperand b0 with
  | 1, false | 2, false | 5, _ => 3
  | 1, true | 2, true | 3, true | 6, true | 4, _ | 7, _ | 8, _ => 1
  | _, _ => 2

/-- The registers an instruction may write, by 10_state.md R22. -/
def writtenRegs : Instr → List Reg
  | .mwImm r _ | .mwReg r _ | .lwAbs r _ | .lwInd r | .pop r => [r]
  | .andImm r _ | .andReg r _ | .orImm r _ | .orReg r _ | .norImm r _ | .norReg r _ => [r]
  | .addImm r _ | .addReg r _ | .adcImm r _ | .adcReg r _ | .sbbImm r _ | .sbbReg r _ => [r, .f]
  | .cmpImm _ _ | .cmpReg _ _ => [.f]
  | .lda _ => [.h, .l]
  | .swAbs _ _ | .swInd _ | .pushImm _ | .pushReg _ | .jnzImm _ | .jnzReg _ | .inb | .outb => []

/-- The cells an instruction may write in a state, by 20_memory.md R53: the PC pair for all but INB and OUTB, the
effective address of SW, the cell at SP and the SP pair of PUSH, the SP pair of POP. -/
def writtenCells (s : State) : Instr → List Addr
  | .inb | .outb => []
  | .swAbs addr _ => addr :: pcCells
  | .swInd _ => s.hl :: pcCells
  | .pushImm _ | .pushReg _ => s.sp :: (spCells ++ pcCells)
  | .pop _ => spCells ++ pcCells
  | .mwImm _ _ | .mwReg _ _ | .lwAbs _ _ | .lwInd _ | .lda _ | .jnzImm _ | .jnzReg _
  | .addImm _ _ | .addReg _ _ | .adcImm _ _ | .adcReg _ _ | .andImm _ _ | .andReg _ _
  | .orImm _ _ | .orReg _ _ | .norImm _ _ | .norReg _ _ | .cmpImm _ _ | .cmpReg _ _
  | .sbbImm _ _ | .sbbReg _ _ => pcCells

/-- The instructions with a `Val` operand, whose effect `REG_OPERAND` selects (30_encoding.md R89,
70_reset_and_hazards.md R225). -/
def usesVal : Instr → Bool
  | .pushReg _ | .jnzReg _ | .addReg _ _ | .adcReg _ _ | .andReg _ _ | .orReg _ _ | .norReg _ _
  | .cmpReg _ _ | .sbbReg _ _ => true
  | .mwImm _ _ | .mwReg _ _ | .lwAbs _ _ | .lwInd _ | .swAbs _ _ | .swInd _ | .pushImm _ | .pop _
  | .lda _ | .jnzImm _ | .inb | .outb | .addImm _ _ | .adcImm _ _ | .andImm _ _ | .orImm _ _
  | .norImm _ _ | .cmpImm _ _ | .sbbImm _ _ => false

/-- The instructions that call FlagsALU, whose flags `FLAGS_VARIANT` selects (42_arithmetic_logic.md R150,
70_reset_and_hazards.md R225). -/
def usesFlags : Instr → Bool
  | .addImm _ _ | .addReg _ _ | .adcImm _ _ | .adcReg _ _ | .cmpImm _ _ | .cmpReg _ _
  | .sbbImm _ _ | .sbbReg _ _ => true
  | .mwImm _ _ | .mwReg _ _ | .lwAbs _ _ | .lwInd _ | .swAbs _ _ | .swInd _ | .pushImm _ | .pushReg _
  | .pop _ | .lda _ | .jnzImm _ | .jnzReg _ | .inb | .outb | .andImm _ _ | .andReg _ _ | .orImm _ _
  | .orReg _ _ | .norImm _ _ | .norReg _ _ => false

/-- The same machine with other StatusFlags. -/
def State.withStatus (f : StatusFlags) (s : State) : State := { s with status := f }

/-- The same machine under other parameters. -/
def State.withParams (p : Params) (s : State) : State := { s with params := p }

/-- An outcome with its next state, if it has one, seen through `f`. -/
def mapNext (f : State → State) : Result → Result
  | .next t => .next (f t)
  | .fault r => .fault r
  | .refused r => .refused r

/-- A fixed point of `Step` (70_reset_and_hazards.md R218): the run stays here for ever. -/
def Stalled (s : State) : Prop := step s = .next s

end Sys2Proof.Machine
end

