-- ==== Sys2Proof/Certificates/Slice0/Obligations.lean ====
section
/-! DEFINITION. The statements about the model, for the provers. -/

open Sys2Proof Sys2Proof.Machine

/-! ## Encoding -/

/-- 30_encoding.md R99, the two encodings that the source itself gives, with their fields. -/
def Obligations.SourceEncodingExamplesDecode : Prop :=
  decode [0x00, 0x0A] = .ok (.mwImm .a 10, []) ∧
  decode [0x08, 0x00] = .ok (.mwReg .a .a, []) ∧
  (label 0x00 = 0 ∧ isRegisterOperand 0x00 = false ∧ registerIndex 0x00 = 0) ∧
  (label 0x08 = 0 ∧ isRegisterOperand 0x08 = true ∧ registerIndex 0x08 = 0) ∧
  registerField 0x00 = .a

/-- One word of every family, written out from the rows of 30_encoding.md R97; the labels 1 to 15 are the spec's
own choice (decision D1, log 1). -/
def Obligations.WordsOfEveryFamilyDecode : Prop :=
  decode [0b00000111, 0x0C] = .ok (.mwImm .f 0x0C, []) ∧
  decode [0b00001000, 0b00000001] = .ok (.mwReg .a .b, []) ∧
  decode [0b00010001, 0xC0, 0x01] = .ok (.lwAbs .b 0xC001, []) ∧
  decode [0b00011101] = .ok (.lwInd .h, []) ∧
  decode [0b00100010, 0xFF, 0xFC] = .ok (.swAbs 0xFFFC .c, []) ∧
  decode [0b00101001] = .ok (.swInd .b, []) ∧
  decode [0b00110000, 0x42] = .ok (.pushImm 0x42, []) ∧
  decode [0b00111110] = .ok (.pushReg .z, []) ∧
  decode [0b01000100] = .ok (.pop .l, []) ∧
  decode [0b01010000, 0x12, 0x34] = .ok (.lda 0x1234, []) ∧
  decode [0b01100000, 0x01] = .ok (.jnzImm 0x01, []) ∧
  decode [0b01101111] = .ok (.jnzReg .f, []) ∧
  decode [0b01110000] = .ok (.inb, []) ∧
  decode [0b10000000] = .ok (.outb, []) ∧
  decode [0b10011011, 0b00000101] = .ok (.addReg .d .h, []) ∧
  decode [0b10100000, 0x01] = .ok (.adcImm .a 0x01, []) ∧
  decode [0b10111000, 0b00000001] = .ok (.andReg .a .b, []) ∧
  decode [0b11000110, 0x0F] = .ok (.orImm .z 0x0F, []) ∧
  decode [0b11010001, 0x00] = .ok (.norImm .b 0x00, []) ∧
  decode [0b11101001, 0b00000100] = .ok (.cmpReg .b .l, []) ∧
  decode [0b11110000, 0x03] = .ok (.sbbImm .a 0x03, [])

/-- Decode and encode agree, for every instruction with every operand and whatever bytes follow: no bit of an
encoding is dropped. Every instruction is well-formed. -/
def Obligations.DecodeOfEncodeIsTheInstruction : Prop :=
  ∀ (i : Instr) (rest : List Byte), i.wellFormed = true ∧ decode (encode i ++ rest) = .ok (i, rest)

/-- 30_encoding.md R85: every value of the first byte has exactly one opcode, and no byte fails to decode. -/
def Obligations.EveryOpcodeByteSelectsOneInstruction : Prop :=
  ∀ b0 : Byte, (∃ op : Op, labelOfOp op = label b0 ∧ ∀ op', labelOfOp op' = label b0 → op' = op) ∧
    ∀ (b1 b2 : Byte) (rest : List Byte), ∃ i : Instr,
      decode (b0 :: b1 :: b2 :: rest) = .ok (i, (b1 :: b2 :: rest).drop (i.length - 1)) ∧
      ((encode i).head?.map label) = some (label b0)

/-- 30_encoding.md R83 and R87: the opcode and R alone fix how many bytes an instruction takes; INB and OUTB
(labels 7 and 8) take their opcode byte. The labels are the spec's own choice (decision D1, log 1). -/
def Obligations.FirstByteFixesTheLength : Prop :=
  ∀ (b0 : Byte) (rest : List Byte),
    (tableLength b0 ≤ rest.length + 1 →
      ∃ i, decode (b0 :: rest) = .ok (i, rest.drop (tableLength b0 - 1)) ∧ i.length = tableLength b0) ∧
    (rest.length + 1 < tableLength b0 → decode (b0 :: rest) = .error .missingOperandBytes)

/-- 30_encoding.md R86: words that differ in ignored bits alone decode to the same instruction, with nothing after
the opcode byte or with any bytes after it. What is ignored is the spec's own choice (decisions D5, D9; log 11). -/
def Obligations.IgnoredBitsDoNotMatter : Prop :=
  ∀ b0 c0 : Byte, b0 &&& ~~~ignoredOpcodeBits b0 = c0 &&& ~~~ignoredOpcodeBits b0 →
    decode [b0] = decode [c0] ∧
    ∀ (b1 c1 : Byte) (rest : List Byte),
      b1 &&& ~~~ignoredOperandBits b0 = c1 &&& ~~~ignoredOperandBits b0 →
      decode (b0 :: b1 :: rest) = decode (c0 :: c1 :: rest)

/-- The other direction of the round trip: encoding what was decoded gives the bytes back with each of R86's
ignored bits zero, so the decoder drops no other bit. -/
def Obligations.DecodeDropsOnlyIgnoredBits : Prop :=
  ∀ (b0 b1 b2 : Byte) (rest : List Byte), ∃ i tail,
    decode (b0 :: b1 :: b2 :: rest) = .ok (i, tail) ∧
    encode i ++ tail =
      (b0 &&& ~~~ignoredOpcodeBits b0) :: (b1 &&& ~~~ignoredOperandBits b0) :: b2 :: rest

/-! ## The step and the run -/

/-- 30_encoding.md R93: when the core runs and the bytes at PC decode to `i`, the step is `i`'s meaning at that
state; the meaning moves PC itself, so the step adds nothing (log 10). -/
def Obligations.StepRunsTheInstructionAtPc : Prop :=
  ∀ (s : State) (i : Instr) (rest : List Byte),
    s.running = true → decode s.fetchedBytes = .ok (i, rest) → step s = exec i s

/-- 20_memory.md R55, 30_encoding.md R88: byte `n` of the instruction is the byte at PC + n, wrapping. Over the PC
cells themselves the byte is that of the PC as incremented, 0xFF in either cell: the order of increments is the
spec's own choice (decision D7, log 9). -/
def Obligations.FetchReadsConsecutiveBytes : Prop :=
  ∀ (s : State) (n : Nat),
    s.fetchedByte n =
      if s.pc + BitVec.ofNat 16 n = pchCell ∨ s.pc + BitVec.ofNat 16 n = pclCell then 0xFF
      else s.memRead (s.pc + BitVec.ofNat 16 n)

/-- 10_state.md R29. -/
def Obligations.StepTakenIffRunning : Prop :=
  ∀ s : State,
    ((∃ t, step s = .next t) ↔ (s.status.power = true ∧ s.status.error = false ∧ s.status.halt = false)) ∧
    (s.running = true ↔ (s.status.power = true ∧ s.status.error = false ∧ s.status.halt = false))

/-- 70_reset_and_hazards.md R214: a core that is not Running takes no step, and the loop returns at once with the
state as it was. That the outcome Stopped is the fault `stopped` of `step` is the model's choice (log 6). -/
def Obligations.StoppedCoreKeepsItsState : Prop :=
  ∀ s : State, s.running = false → step s = .fault .stopped ∧ ∀ n, runLoop n s = s

/-- 70_reset_and_hazards.md R215: once running, a core takes every further step and is still running after it,
whatever the program. A step at INB or OUTB is a next state equal to the state (log 7). -/
def Obligations.RunNeverEndsOnItsOwn : Prop :=
  ∀ s : State, s.running = true →
    ∀ n, ∃ t : State, Host.Core.run Sys2Proof.core n s = .next t ∧ t.running = true ∧ runLoop n s = t

/-- 70_reset_and_hazards.md R211, R213, R216: a running core's loop goes on from its next state, a loop stopped by the
host between two steps and taken up again is the same loop, and a `load` followed by `n` iterations is the load
followed by exactly `n` steps, after which the core is still running. The lengths a load takes are the spec's own
choice (decision D12, log 15), and so is that a step at INB or OUTB is one of the steps (decision D13, log 7). -/
def Obligations.LoadedRunIsItsSteps : Prop :=
  (∀ (n : Nat) (s t : State), s.running = true → step s = .next t → runLoop (n + 1) s = runLoop n t) ∧
  (∀ (n m : Nat) (s : State), runLoop (n + m) s = runLoop m (runLoop n s)) ∧
  (∀ (program : List Byte) (offset : Addr) (n : Nat) (s : State),
    (1 ≤ program.length ∧ program.length ≤ 65536 → ∃ t u : State,
      s.load program offset = some t ∧ t.running = true ∧
      s.loadAndRun program offset n = some u ∧ Host.Core.run Sys2Proof.core n t = .next u ∧
      u.running = true) ∧
    (¬(1 ≤ program.length ∧ program.length ≤ 65536) → s.loadAndRun program offset n = none))

/-- 10_state.md R30: no instruction writes a StatusFlag, and `load` leaves POWER true and the other three false. -/
def Obligations.OnlyLoadWritesStatusFlags : Prop :=
  (∀ (i : Instr) (s t : State), exec i s = .next t → t.status = s.status) ∧
  (∀ (program : List Byte) (offset : Addr) (s t : State), s.load program offset = some t →
    t.status = ⟨false, false, true, false⟩)

/-- 10_state.md R28: no instruction reads a StatusFlag. Two runs of an instruction from states that differ in the
StatusFlags alone end in states that differ in them alone. That no address reaches them is the spec's own choice
(decision D11). -/
def Obligations.NoInstructionReadsStatusFlags : Prop :=
  ∀ (i : Instr) (s : State) (f : StatusFlags),
    exec i (s.withStatus f) = mapNext (State.withStatus f) (exec i s)

/-- 70_reset_and_hazards.md R225: `REG_OPERAND` matters only to the register forms of PUSH, JNZ and the ALU
instructions, `FLAGS_VARIANT` only to ADD, ADC, CMP and SBB. The two parameters are fields of State by the model's choice (log 2). -/
def Obligations.ParameterHazardIsConfined : Prop :=
  (∀ (i : Instr) (s : State) (x : RegOperand), usesVal i = false →
    exec i (s.withParams { s.params with regOperand := x }) =
      mapNext (State.withParams { s.params with regOperand := x }) (exec i s)) ∧
  (∀ (i : Instr) (s : State) (x : FlagsVariant), usesFlags i = false →
    exec i (s.withParams { s.params with flagsVariant := x }) =
      mapNext (State.withParams { s.params with flagsVariant := x }) (exec i s))

/-- The frame of the whole instruction set: every instruction answers a next state in every state, writes no register
but those 10_state.md R22 lists for it, no cell but those 20_memory.md R53 lists, no StatusFlag and no parameter.
INB and OUTB do not complete in the words of 60_exceptions.md R190, they stall: that their outcome Stalled is a next
state, with nothing at all changed, is a choice (decision D13, log 7). -/
def Obligations.EveryInstructionCompletesInItsFrame : Prop :=
  ∀ (i : Instr) (s : State), ∃ t : State,
    exec i s = .next t ∧ OnlyChanges s t (writtenRegs i) (writtenCells s i)

/-- Memory stays canonical through every step (the model's representation, log 8). -/
def Obligations.StepKeepsMemoryCanonical : Prop :=
  ∀ s t : State, s.Inv → step s = .next t → t.Inv

/-- Memory is canonical at construction, whatever the parameters, and in the reset state (log 8). -/
def Obligations.ConstructionMemoryIsCanonical : Prop :=
  (∀ (regReset : Reg → Byte) (p : Params), (State.construct regReset p).Inv) ∧ State.reset.Inv

/-- INB and OUTB at PC hold the run for ever: 43_io.md R182. That they stall and do not advance is the spec's own
choice (decision D13, log 7). -/
def Obligations.InbOutbHoldTheRunForEver : Prop :=
  ∀ s : State, s.running = true → (s.fetchedInstr = .inb ∨ s.fetchedInstr = .outb) →
    ∀ n, Host.Core.run Sys2Proof.core n s = .next s

/-- 70_reset_and_hazards.md R218: JNZ with a non-zero operand and H:L at its own address is a fixed point of `Step`,
in every state whose memory is canonical (the model's representation, log 8). -/
def Obligations.JumpToSelfIsAFixedPoint : Prop :=
  ∀ s : State, s.Inv → s.running = true → s.hl = s.pc →
    ((∃ v, v ≠ 0 ∧ s.fetchedInstr = .jnzImm v) ∨ (∃ r, s.val r ≠ 0 ∧ s.fetchedInstr = .jnzReg r)) →
    Stalled s

/-! ## Construction and load -/

/-- 10_state.md R38, for every REG_RESET. The register values of `State.reset` (log 3) and the StatusFlags before
the first load, all four false (log 4), are the model's choice. -/
def Obligations.ConstructionValues : Prop :=
  (∀ (regReset : Reg → Byte) (p : Params),
    let s := State.construct regReset p
    s.pc = 0x0000 ∧ s.sp = 0xFEFF ∧ s.memRead 0xFFFA = 0x00 ∧
    (∀ a, a ≠ 0xFFFC → a ≠ 0xFFFD → s.memRead a = 0x00) ∧
    (∀ r, s.reg r = regReset r) ∧ s.status = ⟨false, false, false, false⟩ ∧ s.running = false ∧ s.params = p) ∧
  State.reset = State.construct (fun _ => 0x00) ⟨.index, .reference⟩

/-- 70_reset_and_hazards.md R211: what `load` writes and what it leaves. The wrap mod 65536 and the lengths are the
spec's own choice (decision D12, log 15); canonical memory is the model's representation (log 8). -/
def Obligations.LoadWritesTheProgramAlone : Prop :=
  ∀ (program : List Byte) (offset : Addr) (s : State),
    (1 ≤ program.length ∧ program.length ≤ 65536 → ∃ t : State,
      s.load program offset = some t ∧
      (∀ (k : Nat) (h : k < program.length), t.memRead (offset + BitVec.ofNat 16 k) = program[k]) ∧
      (∀ a : Addr, (∀ k, k < program.length → a ≠ offset + BitVec.ofNat 16 k) →
        t.memRead a = s.memRead a) ∧
      (∀ r, t.reg r = s.reg r) ∧ t.status = ⟨false, false, true, false⟩ ∧ t.params = s.params ∧
      (s.Inv → t.Inv)) ∧
    (¬(1 ≤ program.length ∧ program.length ≤ 65536) → s.load program offset = none)

/-- 70_reset_and_hazards.md R212: a run starts where the PC cells point; `load` moves neither PC nor SP unless the
program covers their cells, and a program placed over the PC cells sets PC (decision D12, log 15). -/
def Obligations.LoadLeavesPcAndSpToTheProgram : Prop :=
  (∀ (program : List Byte) (offset : Addr) (s t : State), s.load program offset = some t →
    (∀ k, k < program.length → offset + BitVec.ofNat 16 k ∉ pcCells) → t.pc = s.pc) ∧
  (∀ (program : List Byte) (offset : Addr) (s t : State), s.load program offset = some t →
    (∀ k, k < program.length → offset + BitVec.ofNat 16 k ∉ spCells) → t.sp = s.sp) ∧
  (∀ (hi lo : Byte) (s : State), ∃ t, s.load [hi, lo] 0xFFFE = some t ∧ t.pc = pair hi lo)

/-- The instruction that `withFetchWord` places at PC is the one the next step runs, wherever its three bytes keep
clear of the PC cells (the model's stand-in for a load, log 5). -/
def Obligations.PlacedWordRunsNext : Prop :=
  ∀ (s : State) (nbits w : Nat), s.pc.toNat ≤ 0xFFFB →
    ∃ i, decodeTableWord nbits w = some i ∧ (s.withFetchWord nbits w).pc = s.pc ∧
      step (s.withFetchWord nbits w) = exec i (s.withFetchWord nbits w)

/-! ## Memory and the pairs -/

/-- 20_memory.md R56: PC and SP are read from their cells, and a write to a cell of a pair replaces that half at
once, the other half and the other pair staying. -/
def Obligations.PairsAreTheirCells : Prop :=
  ∀ (s : State) (a : Addr) (v : Byte),
    (s.memRead 0xFFFE = hiByte s.pc ∧ s.memRead 0xFFFF = loByte s.pc ∧
      s.memRead 0xFFFC = hiByte s.sp ∧ s.memRead 0xFFFD = loByte s.sp) ∧
    (s.memWrite a v).pc =
      (if a = 0xFFFE then pair v (loByte s.pc) else if a = 0xFFFF then pair (hiByte s.pc) v else s.pc) ∧
    (s.memWrite a v).sp =
      (if a = 0xFFFC then pair v (loByte s.sp) else if a = 0xFFFD then pair (hiByte s.sp) v else s.sp)

/-- 10_state.md R36: the increment of either pair, byte by byte and as a 16-bit value, and that it changes nothing
but the pair. -/
def Obligations.PairIncrementWraps : Prop :=
  ∀ s : State,
    (loByte s.incPC.pc = loByte s.pc + 1 ∧
      hiByte s.incPC.pc = (if loByte s.pc + 1 = 0 then hiByte s.pc + 1 else hiByte s.pc) ∧
      s.incPC.pc.toNat = (s.pc.toNat + 1) % 65536 ∧ OnlyChanges s s.incPC [] pcCells) ∧
    (loByte s.incSP.sp = loByte s.sp + 1 ∧
      hiByte s.incSP.sp = (if loByte s.sp + 1 = 0 then hiByte s.sp + 1 else hiByte s.sp) ∧
      s.incSP.sp.toNat = (s.sp.toNat + 1) % 65536 ∧ OnlyChanges s s.incSP [] spCells)

/-- 10_state.md R37: the decrement of SP, byte by byte and as a 16-bit value. The wrap of the high byte is the
spec's own choice (decision D20, log 14). -/
def Obligations.StackPointerDecrementBorrows : Prop :=
  ∀ s : State,
    loByte s.decSP.sp = loByte s.sp - 1 ∧
    hiByte s.decSP.sp = (if loByte s.sp = 0 then hiByte s.sp - 1 else hiByte s.sp) ∧
    s.decSP.sp.toNat = (s.sp.toNat + 65535) % 65536 ∧ OnlyChanges s s.decSP [] spCells

/-- 10_state.md R23: H and L form the pointer, and writing either changes it at once. -/
def Obligations.HlPointerFollowsItsHalves : Prop :=
  ∀ (s : State) (r : Reg) (v : Byte),
    s.hl.toNat = (s.reg .h).toNat * 256 + (s.reg .l).toNat ∧
    (s.setReg r v).hl =
      match r with
      | .h => pair v (s.reg .l)
      | .l => pair (s.reg .h) v
      | _ => s.hl

/-- 30_encoding.md R89: what a register-form operand yields under each value of REG_OPERAND, the spec's parameter (decision
D2, log 2). -/
def Obligations.RegisterOperandIsIndexOrContents : Prop :=
  ∀ (s : State) (r : Reg),
    (s.params.regOperand = .index →
      s.val r = match r with
        | .a => 0 | .b => 1 | .c => 2 | .d => 3 | .l => 4 | .h => 5 | .z => 6 | .f => 7) ∧
    (s.params.regOperand = .contents → s.val r = s.reg r)

/-! ## Data movement -/

/-- 40_data_movement.md R110: MW, both forms; the register form copies contents whatever REG_OPERAND is. -/
def Obligations.MoveResult : Prop :=
  ∀ (r : Reg) (s : State),
    (∀ v, ∃ t, exec (.mwImm r v) s = .next t ∧ t.reg r = v ∧ t.pc = s.pc + 2 ∧
      OnlyChanges s t [r] pcCells) ∧
    (∀ q, ∃ t, exec (.mwReg r q) s = .next t ∧ t.reg r = s.reg q ∧ t.pc = s.pc + 2 ∧
      OnlyChanges s t [r] pcCells)

/-- 40_data_movement.md R111: LW, both forms. In the absolute form a PC cell reads as the address of the last byte
fetched: the spec's own choice (decision D7, log 9). -/
def Obligations.LoadResult : Prop :=
  ∀ (r : Reg) (s : State),
    (∀ a, ∃ t, exec (.lwAbs r a) s = .next t ∧
      t.reg r = (if a = pchCell then hiByte (s.pc + 2) else if a = pclCell then loByte (s.pc + 2)
        else s.memRead a) ∧
      t.pc = s.pc + 3 ∧ OnlyChanges s t [r] pcCells) ∧
    (∃ t, exec (.lwInd r) s = .next t ∧ t.reg r = s.memRead s.hl ∧ t.pc = s.pc + 1 ∧
      OnlyChanges s t [r] pcCells)

/-- 40_data_movement.md R112: SW, both forms, to every cell but the PC pair's; no register changes, and no cell
but the one stored to and the PC pair. -/
def Obligations.StoreResult : Prop :=
  ∀ (r : Reg) (s : State),
    (∀ a, a ∉ pcCells → ∃ t, exec (.swAbs a r) s = .next t ∧ t.memRead a = s.reg r ∧ t.pc = s.pc + 3 ∧
      OnlyChanges s t [] (a :: pcCells)) ∧
    (s.hl ∉ pcCells → ∃ t, exec (.swInd r) s = .next t ∧ t.memRead s.hl = s.reg r ∧ t.pc = s.pc + 1 ∧
      OnlyChanges s t [] (s.hl :: pcCells))

/-- 40_data_movement.md R112, 70_reset_and_hazards.md R221: SW to a PC cell replaces that half of PC before the
final increment. The order is the spec's own choice (decision D7, log 9). -/
def Obligations.StoreToPcCellMovesPc : Prop :=
  ∀ (r : Reg) (s : State),
    (∃ t, exec (.swAbs pchCell r) s = .next t ∧ t.pc = pair (s.reg r) (loByte (s.pc + 2)) + 1 ∧
      OnlyChanges s t [] pcCells) ∧
    (∃ t, exec (.swAbs pclCell r) s = .next t ∧ t.pc = pair (hiByte (s.pc + 2)) (s.reg r) + 1 ∧
      OnlyChanges s t [] pcCells) ∧
    (s.hl = pchCell → ∃ t, exec (.swInd r) s = .next t ∧ t.pc = pair (s.reg r) (loByte s.pc) + 1 ∧
      OnlyChanges s t [] pcCells) ∧
    (s.hl = pclCell → ∃ t, exec (.swInd r) s = .next t ∧ t.pc = pair (hiByte s.pc) (s.reg r) + 1 ∧
      OnlyChanges s t [] pcCells)

/-- 10_state.md R35: SW to an SP cell replaces that half of SP at once. -/
def Obligations.StoreToSpCellMovesSp : Prop :=
  ∀ (r : Reg) (s : State),
    (∃ t, exec (.swAbs sphCell r) s = .next t ∧ t.sp = pair (s.reg r) (loByte s.sp)) ∧
    (∃ t, exec (.swAbs splCell r) s = .next t ∧ t.sp = pair (hiByte s.sp) (s.reg r)) ∧
    (s.hl = sphCell → ∃ t, exec (.swInd r) s = .next t ∧ t.sp = pair (s.reg r) (loByte s.sp)) ∧
    (s.hl = splCell → ∃ t, exec (.swInd r) s = .next t ∧ t.sp = pair (hiByte s.sp) (s.reg r))

/-- 20_memory.md R68, 70_reset_and_hazards.md R222: a byte stored where the next instruction begins is the opcode
byte that the next step fetches. -/
def Obligations.StoredByteIsFetchedNext : Prop :=
  ∀ (r : Reg) (s : State),
    (s.pc + 3 ∉ pcCells → ∃ t, exec (.swAbs (s.pc + 3) r) s = .next t ∧ t.fetchedByte 0 = s.reg r) ∧
    (s.hl = s.pc + 1 → s.hl ∉ pcCells → ∃ t, exec (.swInd r) s = .next t ∧ t.fetchedByte 0 = s.reg r)

/-- 40_data_movement.md R113: LDA. -/
def Obligations.LoadAddressResult : Prop :=
  ∀ (a : Addr) (s : State), ∃ t, exec (.lda a) s = .next t ∧
    t.reg .h = hiByte a ∧ t.reg .l = loByte a ∧ t.hl = a ∧ t.pc = s.pc + 3 ∧
    OnlyChanges s t [.h, .l] pcCells

/-- 40_data_movement.md R114: PUSH, both forms, with SP outside its own and the PC's cells; the register form pushes
`Val(r)` (decision D2, log 2). At SP = 0x0000 the new SP is 0xFFFF, the wrap of the high byte that is the spec's own
choice (decision D20, log 14). -/
def Obligations.PushResult : Prop :=
  ∀ s : State, s.sp ∉ spCells ++ pcCells →
    (∀ v, ∃ t, exec (.pushImm v) s = .next t ∧ t.memRead s.sp = v ∧ t.sp = s.sp - 1 ∧ t.pc = s.pc + 2 ∧
      OnlyChanges s t [] (s.sp :: (spCells ++ pcCells))) ∧
    (∀ r, ∃ t, exec (.pushReg r) s = .next t ∧ t.memRead s.sp = s.val r ∧ t.sp = s.sp - 1 ∧
      t.pc = s.pc + 1 ∧ OnlyChanges s t [] (s.sp :: (spCells ++ pcCells)))

/-- 40_data_movement.md R114, 70_reset_and_hazards.md R221: PUSH with SP at one of its own or the PC's cells writes
that half of the pair, and the decrement and the increment then act on the pair as written. The order is the
spec's own choice (decision D7, log 9). -/
def Obligations.PushIntoPointerCells : Prop :=
  ∀ (s : State) (i : Instr) (v : Byte) (len : Nat),
    ((i = .pushImm v ∧ len = 2) ∨ (∃ r, i = .pushReg r ∧ v = s.val r ∧ len = 1)) →
    ∃ t, exec i s = .next t ∧ OnlyChanges s t [] (spCells ++ pcCells ++ [s.sp]) ∧
      (s.sp = sphCell → t.sp = pair v 0xFC - 1 ∧ t.pc = s.pc + BitVec.ofNat 16 len) ∧
      (s.sp = splCell → t.sp = pair 0xFF v - 1 ∧ t.pc = s.pc + BitVec.ofNat 16 len) ∧
      (s.sp = pchCell → t.sp = 0xFFFD ∧
        t.pc = pair v (loByte (s.pc + BitVec.ofNat 16 (len - 1))) + 1) ∧
      (s.sp = pclCell → t.sp = 0xFFFE ∧
        t.pc = pair (hiByte (s.pc + BitVec.ofNat 16 (len - 1))) v + 1)

/-- 40_data_movement.md R115: POP. The byte read is the one at SP + 1; over SP's own cells it is the byte of the
incremented SP. The wrap of SP at 0xFFFF is 10_state.md R36's. A PC cell is read before
the final increment: the spec's own order (decision D7, log 9). -/
def Obligations.PopResult : Prop :=
  ∀ (r : Reg) (s : State), ∃ t, exec (.pop r) s = .next t ∧
    t.reg r = (if s.sp + 1 = sphCell then 0xFF else if s.sp + 1 = splCell then 0xFD
      else s.memRead (s.sp + 1)) ∧
    t.sp = s.sp + 1 ∧ t.pc = s.pc + 1 ∧ OnlyChanges s t [r] (spCells ++ pcCells)

/-- 40_data_movement.md R116: PUSH then POP gives the value and SP back, and leaves every other register and every
cell but the one pushed to and the PC pair. At SP = 0x0000 it rests on the wrap of the high byte on the decrement, the
spec's own choice (decision D20, log 14). -/
def Obligations.PushThenPopRoundTrip : Prop :=
  ∀ (s : State) (i : Instr) (v : Byte) (r : Reg), s.sp ∉ spCells ++ pcCells →
    (i = .pushImm v ∨ ∃ q, i = .pushReg q ∧ v = s.val q) →
    ∃ t u, exec i s = .next t ∧ exec (.pop r) t = .next u ∧ u.reg r = v ∧ u.sp = s.sp ∧
      OnlyChanges s u [r] (s.sp :: pcCells)

/-! ## Control flow -/

/-- 41_control_flow.md R140: JNZ, both forms, taken and not taken; only PC changes, and F is not read: the outcome
depends on the operand and H:L alone. The register form's operand is `Val(r)` (decision D2, log 2). -/
def Obligations.JumpIfNotZeroResult : Prop :=
  ∀ s : State,
    (∀ v, ∃ t, exec (.jnzImm v) s = .next t ∧ t.pc = (if v = 0 then s.pc + 2 else s.hl) ∧
      OnlyChanges s t [] pcCells) ∧
    (∀ r, ∃ t, exec (.jnzReg r) s = .next t ∧ t.pc = (if s.val r = 0 then s.pc + 1 else s.hl) ∧
      OnlyChanges s t [] pcCells)

/-- 41_control_flow.md R140: with REG_OPERAND = index, `JNZ A` never jumps and the other seven always do; with
contents, `JNZ r` jumps exactly when r is not zero (decision D2, log 2). -/
def Obligations.JumpOnRegisterByParameter : Prop :=
  ∀ (r : Reg) (s : State),
    (s.params.regOperand = .index → ∃ t, exec (.jnzReg r) s = .next t ∧
      t.pc = (if r = .a then s.pc + 1 else s.hl)) ∧
    (s.params.regOperand = .contents → ∃ t, exec (.jnzReg r) s = .next t ∧
      t.pc = (if s.reg r = 0 then s.pc + 1 else s.hl))

/-! ## Arithmetic and logic. Each holds for every destination, F included: there the operand is the old F and the
result replaces the flags, which is the spec's own choice (decision D8, log 13). What FlagsALU leaves in F is the
spec's own reading (decisions D3, D4; log 12). -/

/-- 42_arithmetic_logic.md R153: ADD, both forms. The flag table under `reference`, F[1] = a < b, is the spec's own reading
(decisions D3, D4; log 12), and so is what happens when F is the destination (decision D8, log 13). -/
def Obligations.AddResult : Prop :=
  ∀ (r : Reg) (s : State) (i : Instr) (b : Byte),
    (i = .addImm r b ∨ ∃ q, i = .addReg r q ∧ b = s.val q) →
    ∃ t, exec i s = .next t ∧
      (t.reg r).toNat = ((s.reg r).toNat + b.toNat) % 256 ∧
      (r ≠ .f → FlagsTable s.params.flagsVariant (s.reg r) b (s.reg .f) (t.reg .f)) ∧
      t.pc = s.pc + 2 ∧ OnlyChanges s t [r, .f] pcCells

/-- 42_arithmetic_logic.md R154: ADC, both forms; the carry-in is bit 2 of F before the instruction.
The flag table under `reference`, F[1] = a < b, is the spec's own reading
(decisions D3, D4; log 12), and so is what happens when F is the destination (decision D8, log 13). -/
def Obligations.AddWithCarryResult : Prop :=
  ∀ (r : Reg) (s : State) (i : Instr) (b : Byte),
    (i = .adcImm r b ∨ ∃ q, i = .adcReg r q ∧ b = s.val q) →
    ∃ t, exec i s = .next t ∧
      (t.reg r).toNat = ((s.reg r).toNat + b.toNat + ((s.reg .f).getLsbD 2).toNat) % 256 ∧
      (r ≠ .f → FlagsTable s.params.flagsVariant (s.reg r) b (s.reg .f) (t.reg .f)) ∧
      t.pc = s.pc + 2 ∧ OnlyChanges s t [r, .f] pcCells

/-- 42_arithmetic_logic.md R159: SBB, both forms; the borrow-in is bit 3 of F before the instruction, and it is
added. The flag table under `reference`, F[1] = a < b, is the spec's own reading
(decisions D3, D4; log 12), and so is what happens when F is the destination (decision D8, log 13). -/
def Obligations.SubtractAddsTheBorrow : Prop :=
  ∀ (r : Reg) (s : State) (i : Instr) (b : Byte),
    (i = .sbbImm r b ∨ ∃ q, i = .sbbReg r q ∧ b = s.val q) →
    ∃ t, exec i s = .next t ∧
      ((t.reg r).toNat : Int) =
        (((s.reg r).toNat : Int) + (((s.reg .f).getLsbD 3).toNat : Int) - (b.toNat : Int)) % 256 ∧
      (r ≠ .f → FlagsTable s.params.flagsVariant (s.reg r) b (s.reg .f) (t.reg .f)) ∧
      t.pc = s.pc + 2 ∧ OnlyChanges s t [r, .f] pcCells

/-- 42_arithmetic_logic.md R158: CMP, both forms; it writes the flag bits and nothing else, also when it compares F
itself. The flag table under `reference`, F[1] = a < b, is the spec's own reading
(decisions D3, D4; log 12), and so is what happens when F is compared (decision D8, log 13). -/
def Obligations.CompareWritesFlagsAlone : Prop :=
  ∀ (r : Reg) (s : State) (i : Instr) (b : Byte),
    (i = .cmpImm r b ∨ ∃ q, i = .cmpReg r q ∧ b = s.val q) →
    ∃ t, exec i s = .next t ∧
      FlagsTable s.params.flagsVariant (s.reg r) b (s.reg .f) (t.reg .f) ∧
      t.pc = s.pc + 2 ∧ OnlyChanges s t [.f] pcCells

/-- 42_arithmetic_logic.md R155 to R157: AND, OR and NOR, both forms, bit by bit; F keeps its value unless it is the
destination. The register form's operand is `Val(s)` (decision D2, log 2). -/
def Obligations.LogicResult : Prop :=
  ∀ (r : Reg) (s : State) (b : Byte),
    (∀ i, (i = .andImm r b ∨ ∃ q, i = .andReg r q ∧ b = s.val q) →
      ∃ t, exec i s = .next t ∧
        (∀ k, k < 8 → (t.reg r).getLsbD k = ((s.reg r).getLsbD k && b.getLsbD k)) ∧
        t.pc = s.pc + 2 ∧ OnlyChanges s t [r] pcCells) ∧
    (∀ i, (i = .orImm r b ∨ ∃ q, i = .orReg r q ∧ b = s.val q) →
      ∃ t, exec i s = .next t ∧
        (∀ k, k < 8 → (t.reg r).getLsbD k = ((s.reg r).getLsbD k || b.getLsbD k)) ∧
        t.pc = s.pc + 2 ∧ OnlyChanges s t [r] pcCells) ∧
    (∀ i, (i = .norImm r b ∨ ∃ q, i = .norReg r q ∧ b = s.val q) →
      ∃ t, exec i s = .next t ∧
        (t.reg r).toNat = 255 - ((s.reg r) ||| b).toNat ∧
        t.pc = s.pc + 2 ∧ OnlyChanges s t [r] pcCells)

/-! ## Input and output -/

/-- 43_io.md R180, R181: INB and OUTB leave the whole state as it is, PC included. That they stall is the spec's own
choice (decision D13, log 7). -/
def Obligations.InbOutbChangeNothing : Prop :=
  ∀ s : State, exec .inb s = .next s ∧ exec .outb s = .next s
end

