-- ==== Sys2Proof/Laws/Bits.lean ====
section
/-! SUPPORT. Laws of the byte pairs, the bit helpers and the register indices. -/

namespace Sys2Proof

theorem toNat_zero : (0 : Byte).toNat = 0 := rfl
theorem toNat_one : (1 : Byte).toNat = 1 := rfl
theorem toNat_255 : (255 : Byte).toNat = 255 := rfl
theorem toNat_one_addr : (1 : Addr).toNat = 1 := rfl

theorem toNat_pair (hi lo : Byte) : (pair hi lo).toNat = hi.toNat * 256 + lo.toNat := by
  rw [pair, BitVec.toNat_append, ← Nat.shiftLeft_add_eq_or_of_lt lo.isLt, Nat.shiftLeft_eq]

theorem toNat_hiByte (v : Addr) : (hiByte v).toNat = v.toNat / 256 := by
  have := v.isLt
  simp [hiByte, BitVec.extractLsb'_toNat, Nat.shiftRight_eq_div_pow]
  omega

theorem toNat_loByte (v : Addr) : (loByte v).toNat = v.toNat % 256 := by
  simp [loByte, BitVec.extractLsb'_toNat]

@[simp] theorem hiByte_pair (hi lo : Byte) : hiByte (pair hi lo) = hi := by
  have := lo.isLt
  apply BitVec.eq_of_toNat_eq
  rw [toNat_hiByte, toNat_pair]
  omega

@[simp] theorem loByte_pair (hi lo : Byte) : loByte (pair hi lo) = lo := by
  have := lo.isLt
  apply BitVec.eq_of_toNat_eq
  rw [toNat_loByte, toNat_pair]
  omega

@[simp] theorem pair_hiByte_loByte (v : Addr) : pair (hiByte v) (loByte v) = v := by
  apply BitVec.eq_of_toNat_eq
  rw [toNat_pair, toNat_hiByte, toNat_loByte]
  omega

theorem pair_inj {hi lo hi' lo' : Byte} : pair hi lo = pair hi' lo' ↔ hi = hi' ∧ lo = lo' :=
  ⟨fun h => ⟨by simpa using congrArg hiByte h, by simpa using congrArg loByte h⟩,
   fun ⟨h, h'⟩ => by rw [h, h']⟩

/-- Incrementing a big-endian pair: the carry reaches the high byte when the low byte wraps to zero (R36). -/
theorem pair_add_one (hi lo : Byte) :
    pair hi lo + 1 = pair (if lo + 1 = 0 then hi + 1 else hi) (lo + 1) := by
  have hh := hi.isLt
  have hl := lo.isLt
  have wraps : lo + 1 = 0 ↔ lo.toNat = 255 := by
    rw [BitVec.toNat_eq, BitVec.toNat_add, toNat_one, toNat_zero]
    omega
  apply BitVec.eq_of_toNat_eq
  rw [toNat_pair, BitVec.toNat_add, toNat_pair, toNat_one_addr, BitVec.toNat_add, toNat_one]
  split <;> rename_i h <;> rw [wraps] at h <;> try rw [BitVec.toNat_add, toNat_one]
  all_goals omega

/-- Decrementing a big-endian pair: the borrow reaches the high byte when the low byte was zero (R37). -/
theorem pair_sub_one (hi lo : Byte) :
    pair hi lo - 1 = pair (if lo = 0 then hi + 255 else hi) (lo + 255) := by
  have hh := hi.isLt
  have hl := lo.isLt
  have borrows : lo = 0 ↔ lo.toNat = 0 := by rw [BitVec.toNat_eq, toNat_zero]
  apply BitVec.eq_of_toNat_eq
  rw [toNat_pair, BitVec.toNat_sub, toNat_pair, toNat_one_addr, BitVec.toNat_add, toNat_255]
  split <;> rename_i h <;> rw [borrows] at h <;> try rw [BitVec.toNat_add, toNat_255]
  all_goals omega

/-- `n + 1` addresses further is `n` further than the next. -/
theorem add_ofNat_succ (a : Addr) (n : Nat) :
    a + BitVec.ofNat 16 (n + 1) = a + 1 + BitVec.ofNat 16 n := by
  apply BitVec.eq_of_toNat_eq
  simp only [BitVec.toNat_add, BitVec.toNat_ofNat, toNat_one_addr]
  omega

/-- A bit assignment changes its bit and no other. -/
theorem getLsbD_setBit (v : Byte) (i : Nat) (c : Bool) (k : Nat) (hi : i < 8) :
    (setBit v i c).getLsbD k = if k = i then c else v.getLsbD k := by
  by_cases hk : k < 8
  · interval_cases i <;> interval_cases k <;> cases c <;> simp [setBit]
  · have hne : k ≠ i := by omega
    have out : ∀ w : Byte, w.getLsbD k = false := fun w => BitVec.getLsbD_of_ge w k (by omega)
    simp [out, hne]

@[simp] theorem Reg.ofIndex_index (r : Reg) : Reg.ofIndex r.index = r := by cases r <;> rfl

@[simp] theorem Reg.index_ofIndex (i : BitVec 3) : (Reg.ofIndex i).index = i := by
  revert i; decide

theorem Reg.index_inj {r q : Reg} : r.index = q.index ↔ r = q :=
  ⟨fun h => by simpa using congrArg Reg.ofIndex h, fun h => by rw [h]⟩

end Sys2Proof
end

