-- ==== Sys2Proof/Laws/Decode.lean ====
section
/-! SUPPORT. Laws of the opcode byte: the decoder's fields of an encoded byte, and the opcode map. -/

namespace Sys2Proof

/-- The opcode map names every opcode once: its labels lead back to it. -/
@[simp] theorem opOfLabel_labelOfOp (op : Op) : opOfLabel (labelOfOp op) = op := by cases op <;> rfl

/-- The opcode map gives every label an opcode of that label. -/
@[simp] theorem labelOfOp_opOfLabel (l : BitVec 4) : labelOfOp (opOfLabel l) = l := by revert l; decide

@[simp] theorem label_opcodeByte (op : Op) (R : Bool) (r : Reg) : label (opcodeByte op R r) = labelOfOp op := by
  cases op <;> cases R <;> cases r <;> rfl

@[simp] theorem isRegisterOperand_opcodeByte (op : Op) (R : Bool) (r : Reg) :
    isRegisterOperand (opcodeByte op R r) = R := by
  cases op <;> cases R <;> cases r <;> rfl

@[simp] theorem registerField_opcodeByte (op : Op) (R : Bool) (r : Reg) :
    registerField (opcodeByte op R r) = r := by
  cases op <;> cases R <;> cases r <;> rfl

@[simp] theorem registerField_specifierByte (r : Reg) : registerField (specifierByte r) = r := by
  cases r <;> rfl

/-- The fields of a byte give the byte back. -/
theorem opcodeByte_fields (b : Byte) :
    opcodeByte (opOfLabel (label b)) (isRegisterOperand b) (registerField b) = b := by
  revert b; decide

theorem operandBytes_le_two (b0 : Byte) : operandBytes b0 ≤ 2 := by
  unfold operandBytes
  cases formatOf (opOfLabel (label b0)) (isRegisterOperand b0) <;> simp [operandCount]

/-- The instruction decoded from a first byte has the length that byte asks for (30_encoding.md R87). -/
theorem length_decodeBytes (b0 b1 b2 : Byte) : (decodeBytes b0 b1 b2).length = operandBytes b0 + 1 := by
  unfold decodeBytes operandBytes
  cases opOfLabel (label b0) <;> cases isRegisterOperand b0 <;> rfl

/-- A list with enough bytes decodes, and its rest is what the format leaves. -/
theorem decode_cons (b0 : Byte) (rest : List Byte) (h : operandBytes b0 ≤ rest.length) :
    decode (b0 :: rest) =
      .ok (decodeBytes b0 (rest.getD 0 0) (rest.getD 1 0), rest.drop (operandBytes b0)) := by
  rw [decode, if_neg (by omega)]

end Sys2Proof
end

