-- ==== Sys2Proof/Laws/Flags.lean ====
section
/-! SUPPORT. What FlagsALU leaves in each bit of F, for each variant. -/

namespace Sys2Proof.Machine

theorem getLsbD_flagsALU_reference (a b f : Byte) (k : Nat) :
    (flagsALU .reference a b f).getLsbD k =
      if k = 0 ∨ k = 1 then decide (a.toNat < b.toNat) else f.getLsbD k := by
  simp only [flagsALU]
  rw [getLsbD_setBit _ _ _ _ (by decide), getLsbD_setBit _ _ _ _ (by decide),
    getLsbD_setBit _ _ _ _ (by decide), getLsbD_setBit _ _ _ _ (by decide)]
  by_cases h0 : k = 0 <;> by_cases h1 : k = 1 <;> simp [h0, h1]

theorem getLsbD_flagsALU_intended (a b f : Byte) (k : Nat) :
    (flagsALU .intended a b f).getLsbD k =
      if k = 0 ∨ k = 3 then decide (a.toNat < b.toNat)
      else if k = 1 then decide (a.toNat = b.toNat)
      else if k = 2 then decide (a.toNat + b.toNat > 255) else f.getLsbD k := by
  simp only [flagsALU]
  rw [getLsbD_setBit _ _ _ _ (by decide), getLsbD_setBit _ _ _ _ (by decide),
    getLsbD_setBit _ _ _ _ (by decide), getLsbD_setBit _ _ _ _ (by decide)]
  by_cases h0 : k = 0 <;> by_cases h1 : k = 1 <;> by_cases h2 : k = 2 <;> by_cases h3 : k = 3 <;>
    simp [h0, h1, h2, h3]

end Sys2Proof.Machine
end

