-- ==== Sys2Proof/Laws/Memory.lean ====
section
/-! SUPPORT. Laws of memory: a read after a write, the canonical form, and that equal reads make equal memories. -/

namespace Sys2Proof.Machine

theorem Memory.read_insertCell (m : Memory) (a : Nat) (v : Byte) (b : Nat) (habs : ∀ c ∈ m, c.1 ≠ a) :
    Memory.read (Memory.insertCell a v m) b = if b = a then v else Memory.read m b := by
  induction m with
  | nil => simp [insertCell, read, eq_comm]
  | cons cell m ih =>
    have ⟨hx, hm⟩ : cell.1 ≠ a ∧ ∀ c ∈ m, c.1 ≠ a := by simpa using habs
    rw [insertCell]
    by_cases hlt : a < cell.1
    · rw [if_pos hlt]
      simp [read, eq_comm]
    · rw [if_neg hlt]
      simp only [read, ih hm]
      by_cases hb : cell.1 = b
      · have : b ≠ a := fun e => hx (hb.trans e)
        simp [hb, this]
      · simp [hb]

theorem Memory.read_eraseCell_ne (m : Memory) {a b : Nat} (h : b ≠ a) :
    (Memory.eraseCell m a).read b = Memory.read m b := by
  induction m with
  | nil => rfl
  | cons cell m ih =>
    simp only [eraseCell] at ih ⊢
    by_cases hx : cell.1 = a
    · have : cell.1 ≠ b := fun e => h (e.symm.trans hx)
      simp [hx, ih, read, Ne.symm h]
    · by_cases hb : cell.1 = b <;> simp [hx, read, hb, ih, h]

theorem Memory.read_of_absent (m : Memory) (a : Nat) (h : ∀ c ∈ m, c.1 ≠ a) :
    Memory.read m a = Memory.initial a := by
  induction m with
  | nil => rfl
  | cons cell m ih =>
    have ⟨hx, hm⟩ : cell.1 ≠ a ∧ ∀ c ∈ m, c.1 ≠ a := by simpa using h
    simp [read, hx, ih hm]

theorem Memory.absent_eraseCell (m : Memory) (a : Nat) : ∀ c ∈ Memory.eraseCell m a, c.1 ≠ a := by
  intro c hc
  simpa using (List.mem_filter.mp hc).2

/-- A read after a write: the byte written at its own address, what was there before at every other. -/
theorem Memory.read_write (m : Memory) (a : Nat) (v : Byte) (b : Nat) :
    (Memory.write m a v).read b = if b = a then v else Memory.read m b := by
  unfold write
  split
  · rename_i hv
    by_cases h : b = a
    · subst h; simp [read_of_absent _ _ (absent_eraseCell m b), hv]
    · simp [h, read_eraseCell_ne m h]
  · rw [read_insertCell _ _ _ _ (absent_eraseCell m a)]
    by_cases h : b = a
    · simp [h]
    · simp [h, read_eraseCell_ne m h]

/-! ## The canonical form -/

theorem Memory.wf_nil : Memory.wf [] := by simp [Memory.wf]

theorem Memory.mem_insertCell (m : Memory) (a : Nat) (v : Byte) (c : Host.Cell) :
    c ∈ Memory.insertCell a v m ↔ c = (a, v) ∨ c ∈ m := by
  induction m with
  | nil => simp [insertCell]
  | cons cell m ih =>
    simp only [insertCell]
    split
    · simp
    · simp only [List.mem_cons, ih]; tauto

theorem Memory.pairwise_insertCell (m : Memory) (a : Nat) (v : Byte)
    (hm : m.Pairwise (fun c d => c.1 < d.1)) (habs : ∀ c ∈ m, c.1 ≠ a) :
    (Memory.insertCell a v m).Pairwise (fun c d => c.1 < d.1) := by
  induction m with
  | nil => simp [insertCell]
  | cons cell m ih =>
    have ⟨hx, hrest⟩ : cell.1 ≠ a ∧ ∀ c ∈ m, c.1 ≠ a := by simpa using habs
    have ⟨hhead, htail⟩ := List.pairwise_cons.mp hm
    simp only [insertCell]
    split
    · rename_i hlt
      refine List.pairwise_cons.mpr ⟨fun c hc => ?_, hm⟩
      rcases List.mem_cons.mp hc with rfl | hc
      · exact hlt
      · exact lt_trans hlt (hhead c hc)
    · rename_i hlt
      refine List.pairwise_cons.mpr ⟨fun c hc => ?_, ih htail hrest⟩
      rcases (mem_insertCell m a v c).mp hc with rfl | hc
      · show cell.1 < a; omega
      · exact hhead c hc

/-- Every write keeps the canonical form. -/
theorem Memory.wf_write {m : Memory} (hm : m.wf) {a : Nat} (ha : a < 65536) (v : Byte) :
    (m.write a v).wf := by
  obtain ⟨hsorted, hcells⟩ := hm
  have hkeep : (Memory.eraseCell m a).wf :=
    ⟨hsorted.filter _, fun c hc => hcells c (List.mem_filter.mp hc).1⟩
  unfold write
  split
  · exact hkeep
  · rename_i hv
    refine ⟨pairwise_insertCell _ _ _ hkeep.1 (absent_eraseCell m a), fun c hc => ?_⟩
    rcases (mem_insertCell _ a v c).mp hc with rfl | hc
    · exact ⟨ha, hv⟩
    · exact hkeep.2 c hc

theorem Memory.read_of_mem {m : Memory} (hm : m.Pairwise (fun c d => c.1 < d.1)) {c : Host.Cell}
    (hc : c ∈ m) : Memory.read m c.1 = c.2 := by
  induction m with
  | nil => simp at hc
  | cons cell m ih =>
    have ⟨hhead, htail⟩ := List.pairwise_cons.mp hm
    rcases List.mem_cons.mp hc with rfl | hc
    · simp [read]
    · have : cell.1 ≠ c.1 := Nat.ne_of_lt (hhead c hc)
      simp [read, this, ih htail hc]

/-- A canonical memory lists a cell exactly when the cell holds that byte and it is not its construction value. -/
theorem Memory.mem_iff_read {m : Memory} (hm : m.wf) (c : Host.Cell) :
    c ∈ m ↔ Memory.read m c.1 = c.2 ∧ c.2 ≠ Memory.initial c.1 := by
  refine ⟨fun hc => ⟨read_of_mem hm.1 hc, (hm.2 c hc).2⟩, fun ⟨hread, hne⟩ => ?_⟩
  by_contra hc
  apply hne
  rw [← hread]
  apply read_of_absent
  intro d hd e
  have hdc : d = c := Prod.ext e (by rw [← read_of_mem hm.1 hd, e, hread])
  exact hc (hdc ▸ hd)

/-- Canonical memories that read alike at every address are the same list. -/
theorem Memory.ext_of_read {m n : Memory} (hm : m.wf) (hn : n.wf)
    (h : ∀ a, a < 65536 → Memory.read m a = Memory.read n a) : m = n := by
  have hsame : ∀ c, c ∈ m ↔ c ∈ n := by
    intro c
    by_cases hc : c.1 < 65536
    · rw [mem_iff_read hm, mem_iff_read hn, h _ hc]
    · exact ⟨fun h' => absurd (hm.2 c h').1 hc, fun h' => absurd (hn.2 c h').1 hc⟩
  have irrefl : ∀ {l : Memory}, l.Pairwise (fun c d => c.1 < d.1) → l.Nodup := fun hl =>
    hl.imp (fun {c d} hlt e => by rw [e] at hlt; exact lt_irrefl _ hlt)
  exact List.Perm.eq_of_pairwise (le := fun c d => c.1 < d.1)
    (fun a b _ _ h1 h2 => absurd (lt_trans h1 h2) (lt_irrefl _)) hm.1 hn.1
    ((List.perm_ext_iff_of_nodup (irrefl hm.1) (irrefl hn.1)).mpr hsame)

end Sys2Proof.Machine
end

