-- ==== Sys2Proof/Laws/State.lean ====
section
/-! SUPPORT. One small lemma per field per update of State, so that no proof unfolds a record update. -/

namespace Sys2Proof.Machine

/-! ## memWrite -/

@[simp] theorem State.memWrite_regs (s : State) (a v) : (s.memWrite a v).regs = s.regs := rfl
@[simp] theorem State.memWrite_mem (s : State) (a v) : (s.memWrite a v).mem = s.mem.write a.toNat v := rfl
@[simp] theorem State.memWrite_status (s : State) (a v) : (s.memWrite a v).status = s.status := rfl
@[simp] theorem State.memWrite_params (s : State) (a v) : (s.memWrite a v).params = s.params := rfl
@[simp] theorem State.reg_memWrite (s : State) (a v r) : (s.memWrite a v).reg r = s.reg r := rfl

/-! ## setReg -/

@[simp] theorem State.setReg_regs (s : State) (r v) : (s.setReg r v).regs = s.regs.set r v := rfl
@[simp] theorem State.setReg_mem (s : State) (r v) : (s.setReg r v).mem = s.mem := rfl
@[simp] theorem State.setReg_status (s : State) (r v) : (s.setReg r v).status = s.status := rfl
@[simp] theorem State.setReg_params (s : State) (r v) : (s.setReg r v).params = s.params := rfl
@[simp] theorem State.memRead_setReg (s : State) (r v a) : (s.setReg r v).memRead a = s.memRead a := rfl
@[simp] theorem State.pc_setReg (s : State) (r v) : (s.setReg r v).pc = s.pc := rfl
@[simp] theorem State.sp_setReg (s : State) (r v) : (s.setReg r v).sp = s.sp := rfl

/-! ## powerOn -/

@[simp] theorem State.powerOn_regs (s : State) : s.powerOn.regs = s.regs := rfl
@[simp] theorem State.powerOn_mem (s : State) : s.powerOn.mem = s.mem := rfl
@[simp] theorem State.powerOn_status (s : State) : s.powerOn.status = ⟨false, false, true, false⟩ := rfl
@[simp] theorem State.powerOn_params (s : State) : s.powerOn.params = s.params := rfl
@[simp] theorem State.memRead_powerOn (s : State) (a) : s.powerOn.memRead a = s.memRead a := rfl
@[simp] theorem State.reg_powerOn (s : State) (r) : s.powerOn.reg r = s.reg r := rfl
@[simp] theorem State.running_powerOn (s : State) : s.powerOn.running = true := rfl

/-! ## The register file -/

/-- A read of a register after a write of one. -/
theorem RegFile.get_set (f : RegFile) (r : Reg) (v : Byte) (q : Reg) :
    (f.set r v).get q = if q = r then v else f.get q := by
  cases r <;> cases q <;> rfl

/-- Two register files that read alike are the same. -/
theorem RegFile.ext_of_get {f g : RegFile} (h : ∀ r, f.get r = g.get r) : f = g := by
  cases f; cases g
  simp only [RegFile.mk.injEq]
  exact ⟨h .a, h .b, h .c, h .d, h .l, h .h, h .z, h .f⟩

theorem State.reg_setReg (s : State) (r : Reg) (v : Byte) (q : Reg) :
    (s.setReg r v).reg q = if q = r then v else s.reg q := RegFile.get_set _ _ _ _

@[simp] theorem State.reg_setReg_self (s : State) (r : Reg) (v : Byte) : (s.setReg r v).reg r = v := by
  simp [reg_setReg]

theorem State.reg_setReg_ne (s : State) {r q : Reg} (v : Byte) (h : q ≠ r) :
    (s.setReg r v).reg q = s.reg q := by simp [reg_setReg, h]

/-! ## The pair updates: registers, StatusFlags and parameters -/

@[simp] theorem State.inc16_regs (s : State) (h l) : (s.inc16 h l).regs = s.regs := by
  unfold inc16; dsimp only; split <;> simp only [memWrite_regs]
@[simp] theorem State.inc16_status (s : State) (h l) : (s.inc16 h l).status = s.status := by
  unfold inc16; dsimp only; split <;> simp only [memWrite_status]
@[simp] theorem State.inc16_params (s : State) (h l) : (s.inc16 h l).params = s.params := by
  unfold inc16; dsimp only; split <;> simp only [memWrite_params]
@[simp] theorem State.dec16_regs (s : State) (h l) : (s.dec16 h l).regs = s.regs := by
  unfold dec16; dsimp only; split <;> simp only [memWrite_regs]
@[simp] theorem State.dec16_status (s : State) (h l) : (s.dec16 h l).status = s.status := by
  unfold dec16; dsimp only; split <;> simp only [memWrite_status]
@[simp] theorem State.dec16_params (s : State) (h l) : (s.dec16 h l).params = s.params := by
  unfold dec16; dsimp only; split <;> simp only [memWrite_params]

@[simp] theorem State.incPC_regs (s : State) : s.incPC.regs = s.regs := inc16_regs _ _ _
@[simp] theorem State.incPC_status (s : State) : s.incPC.status = s.status := inc16_status _ _ _
@[simp] theorem State.incPC_params (s : State) : s.incPC.params = s.params := inc16_params _ _ _
@[simp] theorem State.incSP_regs (s : State) : s.incSP.regs = s.regs := inc16_regs _ _ _
@[simp] theorem State.incSP_status (s : State) : s.incSP.status = s.status := inc16_status _ _ _
@[simp] theorem State.incSP_params (s : State) : s.incSP.params = s.params := inc16_params _ _ _
@[simp] theorem State.decSP_regs (s : State) : s.decSP.regs = s.regs := dec16_regs _ _ _
@[simp] theorem State.decSP_status (s : State) : s.decSP.status = s.status := dec16_status _ _ _
@[simp] theorem State.decSP_params (s : State) : s.decSP.params = s.params := dec16_params _ _ _
@[simp] theorem State.setPC_regs (s : State) (t) : (s.setPC t).regs = s.regs := rfl
@[simp] theorem State.setPC_status (s : State) (t) : (s.setPC t).status = s.status := rfl
@[simp] theorem State.setPC_params (s : State) (t) : (s.setPC t).params = s.params := rfl

@[simp] theorem State.afterFetch_regs (n : Nat) (s : State) : (s.afterFetch n).regs = s.regs := by
  induction n generalizing s with
  | zero => rfl
  | succ n ih => simp [afterFetch, ih]
@[simp] theorem State.afterFetch_status (n : Nat) (s : State) : (s.afterFetch n).status = s.status := by
  induction n generalizing s with
  | zero => rfl
  | succ n ih => simp [afterFetch, ih]
@[simp] theorem State.afterFetch_params (n : Nat) (s : State) : (s.afterFetch n).params = s.params := by
  induction n generalizing s with
  | zero => rfl
  | succ n ih => simp [afterFetch, ih]

@[simp] theorem State.reg_incPC (s : State) (r) : s.incPC.reg r = s.reg r := by simp [reg]
@[simp] theorem State.reg_incSP (s : State) (r) : s.incSP.reg r = s.reg r := by simp [reg]
@[simp] theorem State.reg_decSP (s : State) (r) : s.decSP.reg r = s.reg r := by simp [reg]
@[simp] theorem State.reg_setPC (s : State) (t r) : (s.setPC t).reg r = s.reg r := rfl
@[simp] theorem State.reg_afterFetch (n : Nat) (s : State) (r) : (s.afterFetch n).reg r = s.reg r := by
  simp [reg]

/-! ## FlagsALU as an update -/

@[simp] theorem State.flags_mem (s : State) (a b) : (s.flags a b).mem = s.mem := rfl
@[simp] theorem State.flags_status (s : State) (a b) : (s.flags a b).status = s.status := rfl
@[simp] theorem State.flags_params (s : State) (a b) : (s.flags a b).params = s.params := rfl
@[simp] theorem State.memRead_flags (s : State) (a b c) : (s.flags a b).memRead c = s.memRead c := rfl
@[simp] theorem State.pc_flags (s : State) (a b) : (s.flags a b).pc = s.pc := rfl
theorem State.reg_flags (s : State) (a b q) :
    (s.flags a b).reg q = if q = .f then flagsALU s.params.flagsVariant a b (s.reg .f) else s.reg q :=
  reg_setReg _ _ _ _

/-! ## Registers read through another home -/

@[simp] theorem State.hl_setPC (s : State) (t) : (s.setPC t).hl = s.hl := rfl
@[simp] theorem State.hl_incPC (s : State) : s.incPC.hl = s.hl := by simp [hl]
@[simp] theorem State.hl_afterFetch (n : Nat) (s : State) : (s.afterFetch n).hl = s.hl := by simp [hl]
@[simp] theorem State.val_afterFetch (n : Nat) (s : State) (q) : (s.afterFetch n).val q = s.val q := by
  simp [val]
@[simp] theorem State.operandValue_afterFetch (n : Nat) (s : State) (o) :
    (s.afterFetch n).operandValue o = s.operandValue o := by
  cases o <;> simp [operandValue]
@[simp] theorem State.carry_afterFetch (n : Nat) (s : State) : (s.afterFetch n).carry = s.carry := by
  simp [carry]
@[simp] theorem State.borrow_afterFetch (n : Nat) (s : State) : (s.afterFetch n).borrow = s.borrow := by
  simp [borrow]

/-! ## Construction -/

theorem State.memRead_construct (regReset : Reg → Byte) (p : Params) (a : Addr) :
    (State.construct regReset p).memRead a = Memory.initial a.toNat := rfl

theorem State.reg_construct (regReset : Reg → Byte) (p : Params) (r : Reg) :
    (State.construct regReset p).reg r = regReset r := by cases r <;> rfl

/-- Two states with the same registers, the same bytes in canonical memories, the same StatusFlags and the same
parameters are the same state. -/
theorem State.ext_of_parts {s t : State} (hregs : s.regs = t.regs) (hmem : s.mem = t.mem)
    (hstatus : s.status = t.status) (hparams : s.params = t.params) : s = t := by
  cases s; cases t; simp_all

end Sys2Proof.Machine
end

