-- ==== Sys2Proof/Laws/Ops.lean ====
section
/-! SUPPORT. What each shared operation does, said once: the byte every cell reads as afterwards, PC and SP. -/

namespace Sys2Proof.Machine

/-! ## memWrite -/

/-- A read after a write (20_memory.md R65). -/
theorem State.memRead_memWrite (s : State) (a : Addr) (v : Byte) (b : Addr) :
    (s.memWrite a v).memRead b = if b = a then v else s.memRead b := by
  simp only [memRead, memWrite_mem, Memory.read_write, BitVec.toNat_inj]

theorem State.memRead_memWrite_ne (s : State) {a b : Addr} (v : Byte) (h : b ≠ a) :
    (s.memWrite a v).memRead b = s.memRead b := by rw [memRead_memWrite, if_neg h]

theorem State.wf_memWrite {s : State} (h : s.mem.wf) (a : Addr) (v : Byte) : (s.memWrite a v).mem.wf :=
  Memory.wf_write h a.isLt v

/-! ## Reading PC and SP by halves -/

theorem State.hiByte_pc (s : State) : hiByte s.pc = s.memRead pchCell := hiByte_pair _ _
theorem State.loByte_pc (s : State) : loByte s.pc = s.memRead pclCell := loByte_pair _ _
theorem State.hiByte_sp (s : State) : hiByte s.sp = s.memRead sphCell := hiByte_pair _ _
theorem State.loByte_sp (s : State) : loByte s.sp = s.memRead splCell := loByte_pair _ _

/-- PC after a write: a write to one of its cells replaces that half (20_memory.md R56). -/
theorem State.pc_memWrite (s : State) (a : Addr) (v : Byte) :
    (s.memWrite a v).pc =
      pair (if a = pchCell then v else hiByte s.pc) (if a = pclCell then v else loByte s.pc) := by
  simp only [hiByte_pc, loByte_pc]
  simp only [pc, memRead_memWrite, eq_comm]

/-- SP after a write: a write to one of its cells replaces that half (20_memory.md R56). -/
theorem State.sp_memWrite (s : State) (a : Addr) (v : Byte) :
    (s.memWrite a v).sp =
      pair (if a = sphCell then v else hiByte s.sp) (if a = splCell then v else loByte s.sp) := by
  simp only [hiByte_sp, loByte_sp]
  simp only [sp, memRead_memWrite, eq_comm]

/-! ## Inc16 and Dec16 -/

/-- `Inc16` adds one to the pair and leaves every other cell (10_state.md R36). -/
theorem State.memRead_inc16 (s : State) {h l : Addr} (hne : h ≠ l) (a : Addr) :
    (s.inc16 h l).memRead a =
      if a = h then hiByte (pair (s.memRead h) (s.memRead l) + 1)
      else if a = l then loByte (pair (s.memRead h) (s.memRead l) + 1) else s.memRead a := by
  rw [pair_add_one, hiByte_pair, loByte_pair]
  unfold inc16
  dsimp only
  split <;> simp only [memRead_memWrite] <;> by_cases hh : a = h <;> by_cases hl : a = l <;> simp_all

/-- `Dec16` subtracts one from the pair and leaves every other cell (10_state.md R37). -/
theorem State.memRead_dec16 (s : State) {h l : Addr} (hne : h ≠ l) (a : Addr) :
    (s.dec16 h l).memRead a =
      if a = h then hiByte (pair (s.memRead h) (s.memRead l) - 1)
      else if a = l then loByte (pair (s.memRead h) (s.memRead l) - 1) else s.memRead a := by
  rw [pair_sub_one, hiByte_pair, loByte_pair]
  unfold dec16
  dsimp only
  split <;> simp only [memRead_memWrite] <;> by_cases hh : a = h <;> by_cases hl : a = l <;> simp_all

theorem State.wf_inc16 {s : State} (hs : s.mem.wf) (h l : Addr) : (s.inc16 h l).mem.wf := by
  unfold inc16
  dsimp only
  split
  · exact wf_memWrite (wf_memWrite hs _ _) _ _
  · exact wf_memWrite hs _ _

theorem State.wf_dec16 {s : State} (hs : s.mem.wf) (h l : Addr) : (s.dec16 h l).mem.wf := by
  unfold dec16
  dsimp only
  split
  · exact wf_memWrite (wf_memWrite hs _ _) _ _
  · exact wf_memWrite hs _ _

/-! ## IncPC, IncSP, DecSP, pc <- t -/

theorem State.memRead_incPC (s : State) (a : Addr) :
    s.incPC.memRead a =
      if a = pchCell then hiByte (s.pc + 1) else if a = pclCell then loByte (s.pc + 1) else s.memRead a :=
  memRead_inc16 s (by decide) a

theorem State.memRead_incSP (s : State) (a : Addr) :
    s.incSP.memRead a =
      if a = sphCell then hiByte (s.sp + 1) else if a = splCell then loByte (s.sp + 1) else s.memRead a :=
  memRead_inc16 s (by decide) a

theorem State.memRead_decSP (s : State) (a : Addr) :
    s.decSP.memRead a =
      if a = sphCell then hiByte (s.sp - 1) else if a = splCell then loByte (s.sp - 1) else s.memRead a :=
  memRead_dec16 s (by decide) a

theorem State.memRead_setPC (s : State) (t a : Addr) :
    (s.setPC t).memRead a =
      if a = pchCell then hiByte t else if a = pclCell then loByte t else s.memRead a := by
  simp only [setPC, memRead_memWrite]
  by_cases h : a = pchCell
  · subst h; simp [pchCell, pclCell]
  · simp [h]

theorem State.pc_incPC (s : State) : s.incPC.pc = s.pc + 1 := by
  rw [pc, memRead_incPC, memRead_incPC, if_pos rfl, if_neg (by decide), if_pos rfl, pair_hiByte_loByte]

theorem State.sp_incPC (s : State) : s.incPC.sp = s.sp := by
  rw [sp, memRead_incPC, memRead_incPC, if_neg (by decide), if_neg (by decide), if_neg (by decide),
    if_neg (by decide), sp]

theorem State.sp_incSP (s : State) : s.incSP.sp = s.sp + 1 := by
  rw [sp, memRead_incSP, memRead_incSP, if_pos rfl, if_neg (by decide), if_pos rfl, pair_hiByte_loByte]

theorem State.pc_incSP (s : State) : s.incSP.pc = s.pc := by
  rw [pc, memRead_incSP, memRead_incSP, if_neg (by decide), if_neg (by decide), if_neg (by decide),
    if_neg (by decide), pc]

theorem State.sp_decSP (s : State) : s.decSP.sp = s.sp - 1 := by
  rw [sp, memRead_decSP, memRead_decSP, if_pos rfl, if_neg (by decide), if_pos rfl, pair_hiByte_loByte]

theorem State.pc_decSP (s : State) : s.decSP.pc = s.pc := by
  rw [pc, memRead_decSP, memRead_decSP, if_neg (by decide), if_neg (by decide), if_neg (by decide),
    if_neg (by decide), pc]

theorem State.pc_setPC (s : State) (t : Addr) : (s.setPC t).pc = t := by
  rw [pc, memRead_setPC, memRead_setPC, if_pos rfl, if_neg (by decide), if_pos rfl, pair_hiByte_loByte]

theorem State.sp_setPC (s : State) (t : Addr) : (s.setPC t).sp = s.sp := by
  rw [sp, memRead_setPC, memRead_setPC, if_neg (by decide), if_neg (by decide), if_neg (by decide),
    if_neg (by decide), sp]

theorem State.wf_incPC {s : State} (h : s.mem.wf) : s.incPC.mem.wf := wf_inc16 h _ _
theorem State.wf_incSP {s : State} (h : s.mem.wf) : s.incSP.mem.wf := wf_inc16 h _ _
theorem State.wf_decSP {s : State} (h : s.mem.wf) : s.decSP.mem.wf := wf_dec16 h _ _
theorem State.wf_setPC {s : State} (h : s.mem.wf) (t : Addr) : (s.setPC t).mem.wf :=
  wf_memWrite (wf_memWrite h _ _) _ _

/-! ## Fetching -/

/-- `n` fetches move PC by `n` and leave every other cell (30_encoding.md R88). -/
theorem State.memRead_afterFetch (n : Nat) (s : State) (a : Addr) :
    (s.afterFetch n).memRead a =
      if a = pchCell then hiByte (s.pc + BitVec.ofNat 16 n)
      else if a = pclCell then loByte (s.pc + BitVec.ofNat 16 n) else s.memRead a := by
  induction n generalizing s with
  | zero =>
    by_cases h : a = pchCell
    · subst h; simp [afterFetch, hiByte_pc]
    · by_cases h' : a = pclCell
      · subst h'; simp [afterFetch, loByte_pc, h]
      · simp [afterFetch, h, h']
  | succ n ih =>
    have step : s.pc + BitVec.ofNat 16 (n + 1) = s.incPC.pc + BitVec.ofNat 16 n := by
      rw [pc_incPC, add_ofNat_succ]
    rw [afterFetch, ih, step, memRead_incPC]
    split <;> rename_i h
    · rfl
    · split <;> rfl

theorem State.pc_afterFetch (n : Nat) (s : State) : (s.afterFetch n).pc = s.pc + BitVec.ofNat 16 n := by
  rw [pc, memRead_afterFetch, memRead_afterFetch, if_pos rfl, if_neg (by decide), if_pos rfl,
    pair_hiByte_loByte]

theorem State.sp_afterFetch (n : Nat) (s : State) : (s.afterFetch n).sp = s.sp := by
  rw [sp, memRead_afterFetch, memRead_afterFetch, if_neg (by decide), if_neg (by decide),
    if_neg (by decide), if_neg (by decide), sp]

theorem State.wf_afterFetch (n : Nat) {s : State} (h : s.mem.wf) : (s.afterFetch n).mem.wf := by
  induction n generalizing s with
  | zero => exact h
  | succ n ih => exact ih (wf_incPC h)

/-! ## load -/

@[simp] theorem State.placeBytes_regs (bs : List Byte) (a : Addr) (s : State) :
    (State.placeBytes bs a s).regs = s.regs := by
  induction bs generalizing a s with
  | nil => rfl
  | cons b bs ih => simp [placeBytes, ih]

@[simp] theorem State.placeBytes_status (bs : List Byte) (a : Addr) (s : State) :
    (State.placeBytes bs a s).status = s.status := by
  induction bs generalizing a s with
  | nil => rfl
  | cons b bs ih => simp [placeBytes, ih]

@[simp] theorem State.placeBytes_params (bs : List Byte) (a : Addr) (s : State) :
    (State.placeBytes bs a s).params = s.params := by
  induction bs generalizing a s with
  | nil => rfl
  | cons b bs ih => simp [placeBytes, ih]

/-- A cell that no byte of the program is placed at keeps its byte (70_reset_and_hazards.md R211). -/
theorem State.memRead_placeBytes_of_outside (bs : List Byte) (a : Addr) (s : State) (c : Addr)
    (h : ∀ i, i < bs.length → c ≠ a + BitVec.ofNat 16 i) :
    (State.placeBytes bs a s).memRead c = s.memRead c := by
  induction bs generalizing a s with
  | nil => rfl
  | cons b bs ih =>
    have h0 : c ≠ a := by simpa using h 0 (by simp)
    rw [placeBytes, ih, memRead_memWrite_ne _ _ h0]
    intro i hi
    have := h (i + 1) (by simpa using hi)
    rwa [add_ofNat_succ] at this

/-- Byte `i` of a program that fits the address space is at `offset + i` (70_reset_and_hazards.md R211). -/
theorem State.memRead_placeBytes (bs : List Byte) (a : Addr) (s : State) (hlen : bs.length ≤ 65536)
    (i : Nat) (hi : i < bs.length) :
    (State.placeBytes bs a s).memRead (a + BitVec.ofNat 16 i) = bs[i] := by
  induction bs generalizing a s i with
  | nil => simp at hi
  | cons b bs ih =>
    rw [placeBytes]
    cases i with
    | zero =>
      rw [memRead_placeBytes_of_outside, memRead_memWrite]
      · simp
      · intro j hj e
        simp only [List.length_cons] at hlen
        have e := congrArg BitVec.toNat e
        have := a.isLt
        simp only [BitVec.toNat_add, BitVec.toNat_ofNat, toNat_one_addr] at e
        omega
    | succ i =>
      simp only [List.length_cons] at hlen hi
      have := ih (a + 1) (s.memWrite a b) (by omega) i (by omega)
      simpa only [add_ofNat_succ a i, List.getElem_cons_succ] using this

theorem State.wf_placeBytes (bs : List Byte) (a : Addr) {s : State} (h : s.mem.wf) :
    (State.placeBytes bs a s).mem.wf := by
  induction bs generalizing a s with
  | nil => exact h
  | cons b bs ih => exact ih (a + 1) (wf_memWrite h a b)

end Sys2Proof.Machine
end

