-- ==== Sys2Proof/Laws/Exec.lean ====
section
/-! SUPPORT. What the shared effects of the families do: registers, cells, PC and SP after each. -/

namespace Sys2Proof.Machine

/-! ## The final IncPC after the operand fetches -/

theorem State.memRead_incPC_afterFetch (n : Nat) (s : State) (a : Addr) :
    (s.afterFetch n).incPC.memRead a =
      if a = pchCell then hiByte (s.pc + BitVec.ofNat 16 n + 1)
      else if a = pclCell then loByte (s.pc + BitVec.ofNat 16 n + 1) else s.memRead a := by
  rw [memRead_incPC, pc_afterFetch, memRead_afterFetch]
  split
  · rfl
  · split <;> rfl

/-- The final increment after `n` fetches leaves PC at the address after the instruction's last byte. -/
theorem State.pc_incPC_afterFetch (n : Nat) (s : State) :
    (s.afterFetch n).incPC.pc = s.pc + BitVec.ofNat 16 n + 1 := by rw [pc_incPC, pc_afterFetch]

/-- Two states whose cells read alike have the same PC. -/
theorem State.pc_of_memRead {s t : State} (h : ∀ a, s.memRead a = t.memRead a) : s.pc = t.pc := by
  simp only [pc, h]

theorem State.pc_two_bytes (s : State) : (s.afterFetch 1).incPC.pc = s.pc + 2 := by
  rw [pc_incPC_afterFetch, BitVec.add_assoc]; rfl

theorem State.pc_three_bytes (s : State) : (s.afterFetch 2).incPC.pc = s.pc + 3 := by
  rw [pc_incPC_afterFetch, BitVec.add_assoc]; rfl

/-- `IncPC` after a register write is a register write after `IncPC`. -/
theorem State.memRead_incPC_setReg (s : State) (r : Reg) (v : Byte) (a : Addr) :
    (s.setReg r v).incPC.memRead a = s.incPC.memRead a := by
  simp only [memRead_incPC, pc_setReg, memRead_setReg]

theorem State.memRead_incPC_flags (s : State) (x y : Byte) (a : Addr) :
    (s.flags x y).incPC.memRead a = s.incPC.memRead a := memRead_incPC_setReg _ _ _ _

/-! ## LW -/

theorem State.reg_load1 (r : Reg) (a : Addr) (s : State) (q : Reg) :
    (s.load1 r a).reg q = if q = r then s.memRead a else s.reg q := by
  rw [load1, reg_incPC, reg_setReg]

theorem State.memRead_load1 (r : Reg) (a : Addr) (s : State) (b : Addr) :
    (s.load1 r a).memRead b = s.incPC.memRead b := memRead_incPC_setReg _ _ _ _

theorem State.pc_load1 (r : Reg) (a : Addr) (s : State) : (s.load1 r a).pc = s.pc + 1 := by
  rw [load1, pc_incPC, pc_setReg]

@[simp] theorem State.load1_status (r : Reg) (a : Addr) (s : State) : (s.load1 r a).status = s.status := by
  simp [load1]
@[simp] theorem State.load1_params (r : Reg) (a : Addr) (s : State) : (s.load1 r a).params = s.params := by
  simp [load1]

/-! ## SW -/

@[simp] theorem State.reg_store1 (a : Addr) (r : Reg) (s : State) (q : Reg) : (s.store1 a r).reg q = s.reg q := by
  simp [store1]

theorem State.pc_store1 (a : Addr) (r : Reg) (s : State) :
    (s.store1 a r).pc =
      pair (if a = pchCell then s.reg r else hiByte s.pc) (if a = pclCell then s.reg r else loByte s.pc) + 1 := by
  rw [store1, pc_incPC, pc_memWrite]

theorem State.memRead_store1 (a : Addr) (r : Reg) (s : State) (b : Addr) (hh : b ≠ pchCell) (hl : b ≠ pclCell) :
    (s.store1 a r).memRead b = if b = a then s.reg r else s.memRead b := by
  rw [store1, memRead_incPC, if_neg hh, if_neg hl, memRead_memWrite]

@[simp] theorem State.store1_status (a : Addr) (r : Reg) (s : State) : (s.store1 a r).status = s.status := by
  simp [store1]
@[simp] theorem State.store1_params (a : Addr) (r : Reg) (s : State) : (s.store1 a r).params = s.params := by
  simp [store1]

/-! ## PUSH -/

@[simp] theorem State.reg_push1 (v : Byte) (s : State) (q : Reg) : (s.push1 v).reg q = s.reg q := by
  simp [push1]

theorem State.sp_push1 (v : Byte) (s : State) :
    (s.push1 v).sp =
      pair (if s.sp = sphCell then v else hiByte s.sp) (if s.sp = splCell then v else loByte s.sp) - 1 := by
  rw [push1, sp_incPC, sp_decSP, sp_memWrite]

theorem State.pc_push1 (v : Byte) (s : State) :
    (s.push1 v).pc =
      pair (if s.sp = pchCell then v else hiByte s.pc) (if s.sp = pclCell then v else loByte s.pc) + 1 := by
  rw [push1, pc_incPC, pc_decSP, pc_memWrite]

theorem State.memRead_push1 (v : Byte) (s : State) (b : Addr) (hsh : b ≠ sphCell) (hsl : b ≠ splCell)
    (hph : b ≠ pchCell) (hpl : b ≠ pclCell) :
    (s.push1 v).memRead b = if b = s.sp then v else s.memRead b := by
  rw [push1, memRead_incPC, if_neg hph, if_neg hpl, memRead_decSP, if_neg hsh, if_neg hsl, memRead_memWrite]

@[simp] theorem State.push1_status (v : Byte) (s : State) : (s.push1 v).status = s.status := by simp [push1]
@[simp] theorem State.push1_params (v : Byte) (s : State) : (s.push1 v).params = s.params := by simp [push1]

/-! ## JNZ -/

@[simp] theorem State.reg_jumpIfNotZero (v : Byte) (s : State) (q : Reg) :
    (s.jumpIfNotZero v).reg q = s.reg q := by
  unfold jumpIfNotZero; split <;> simp

theorem State.pc_jumpIfNotZero (v : Byte) (s : State) :
    (s.jumpIfNotZero v).pc = if v ≠ 0 then s.hl else s.pc + 1 := by
  unfold jumpIfNotZero; split
  · exact pc_setPC _ _
  · exact pc_incPC _

theorem State.memRead_jumpIfNotZero (v : Byte) (s : State) (b : Addr) (hh : b ≠ pchCell) (hl : b ≠ pclCell) :
    (s.jumpIfNotZero v).memRead b = s.memRead b := by
  unfold jumpIfNotZero; split
  · rw [memRead_setPC, if_neg hh, if_neg hl]
  · rw [memRead_incPC, if_neg hh, if_neg hl]

@[simp] theorem State.jumpIfNotZero_status (v : Byte) (s : State) : (s.jumpIfNotZero v).status = s.status := by
  unfold jumpIfNotZero; split <;> simp
@[simp] theorem State.jumpIfNotZero_params (v : Byte) (s : State) : (s.jumpIfNotZero v).params = s.params := by
  unfold jumpIfNotZero; split <;> simp

/-! ## The arithmetic and logic operations: the registers, and that memory changes in the PC pair alone -/

theorem State.reg_add1 (r : Reg) (o : Operand) (s : State) (q : Reg) :
    (s.add1 r o).reg q =
      if q = r then s.reg r + s.operandValue o
      else if q = .f then flagsALU s.params.flagsVariant (s.reg r) (s.operandValue o) (s.reg .f) else s.reg q := by
  simp only [add1, reg_incPC, reg_setReg, reg_flags, reg_afterFetch, operandValue_afterFetch, afterFetch_params]

theorem State.reg_adc1 (r : Reg) (o : Operand) (s : State) (q : Reg) :
    (s.adc1 r o).reg q =
      if q = r then s.reg r + s.operandValue o + s.carry
      else if q = .f then flagsALU s.params.flagsVariant (s.reg r) (s.operandValue o) (s.reg .f) else s.reg q := by
  simp only [adc1, reg_incPC, reg_setReg, reg_flags, reg_afterFetch, operandValue_afterFetch, afterFetch_params,
    carry_afterFetch]

theorem State.reg_sbb1 (r : Reg) (o : Operand) (s : State) (q : Reg) :
    (s.sbb1 r o).reg q =
      if q = r then s.reg r + s.borrow - s.operandValue o
      else if q = .f then flagsALU s.params.flagsVariant (s.reg r) (s.operandValue o) (s.reg .f) else s.reg q := by
  simp only [sbb1, reg_incPC, reg_setReg, reg_flags, reg_afterFetch, operandValue_afterFetch, afterFetch_params,
    borrow_afterFetch]

theorem State.reg_cmp1 (r : Reg) (o : Operand) (s : State) (q : Reg) :
    (s.cmp1 r o).reg q =
      if q = .f then flagsALU s.params.flagsVariant (s.reg r) (s.operandValue o) (s.reg .f) else s.reg q := by
  simp only [cmp1, reg_incPC, reg_flags, reg_afterFetch, operandValue_afterFetch, afterFetch_params]

theorem State.reg_logic1 (f : Byte → Byte → Byte) (r : Reg) (o : Operand) (s : State) (q : Reg) :
    (s.logic1 f r o).reg q = if q = r then f (s.reg r) (s.operandValue o) else s.reg q := by
  simp only [logic1, reg_incPC, reg_setReg, reg_afterFetch, operandValue_afterFetch]

theorem State.memRead_add1 (r : Reg) (o : Operand) (s : State) (a : Addr) :
    (s.add1 r o).memRead a = (s.afterFetch 1).incPC.memRead a := by
  simp only [add1, memRead_incPC_setReg, memRead_incPC_flags]

theorem State.memRead_adc1 (r : Reg) (o : Operand) (s : State) (a : Addr) :
    (s.adc1 r o).memRead a = (s.afterFetch 1).incPC.memRead a := by
  simp only [adc1, memRead_incPC_setReg, memRead_incPC_flags]

theorem State.memRead_sbb1 (r : Reg) (o : Operand) (s : State) (a : Addr) :
    (s.sbb1 r o).memRead a = (s.afterFetch 1).incPC.memRead a := by
  simp only [sbb1, memRead_incPC_setReg, memRead_incPC_flags]

theorem State.memRead_cmp1 (r : Reg) (o : Operand) (s : State) (a : Addr) :
    (s.cmp1 r o).memRead a = (s.afterFetch 1).incPC.memRead a := by
  simp only [cmp1, memRead_incPC_flags]

theorem State.memRead_logic1 (f : Byte → Byte → Byte) (r : Reg) (o : Operand) (s : State) (a : Addr) :
    (s.logic1 f r o).memRead a = (s.afterFetch 1).incPC.memRead a := by
  simp only [logic1, memRead_incPC_setReg]

theorem State.pc_add1 (r : Reg) (o : Operand) (s : State) : (s.add1 r o).pc = s.pc + 2 :=
  (pc_of_memRead (memRead_add1 r o s)).trans s.pc_two_bytes
theorem State.pc_adc1 (r : Reg) (o : Operand) (s : State) : (s.adc1 r o).pc = s.pc + 2 :=
  (pc_of_memRead (memRead_adc1 r o s)).trans s.pc_two_bytes
theorem State.pc_sbb1 (r : Reg) (o : Operand) (s : State) : (s.sbb1 r o).pc = s.pc + 2 :=
  (pc_of_memRead (memRead_sbb1 r o s)).trans s.pc_two_bytes
theorem State.pc_cmp1 (r : Reg) (o : Operand) (s : State) : (s.cmp1 r o).pc = s.pc + 2 :=
  (pc_of_memRead (memRead_cmp1 r o s)).trans s.pc_two_bytes
theorem State.pc_logic1 (f : Byte → Byte → Byte) (r : Reg) (o : Operand) (s : State) : (s.logic1 f r o).pc = s.pc + 2 :=
  (pc_of_memRead (memRead_logic1 f r o s)).trans s.pc_two_bytes

@[simp] theorem State.add1_status (r : Reg) (o : Operand) (s : State) : (s.add1 r o).status = s.status := by
  simp [add1]
@[simp] theorem State.add1_params (r : Reg) (o : Operand) (s : State) : (s.add1 r o).params = s.params := by
  simp [add1]
@[simp] theorem State.adc1_status (r : Reg) (o : Operand) (s : State) : (s.adc1 r o).status = s.status := by
  simp [adc1]
@[simp] theorem State.adc1_params (r : Reg) (o : Operand) (s : State) : (s.adc1 r o).params = s.params := by
  simp [adc1]
@[simp] theorem State.sbb1_status (r : Reg) (o : Operand) (s : State) : (s.sbb1 r o).status = s.status := by
  simp [sbb1]
@[simp] theorem State.sbb1_params (r : Reg) (o : Operand) (s : State) : (s.sbb1 r o).params = s.params := by
  simp [sbb1]
@[simp] theorem State.cmp1_status (r : Reg) (o : Operand) (s : State) : (s.cmp1 r o).status = s.status := by
  simp [cmp1]
@[simp] theorem State.cmp1_params (r : Reg) (o : Operand) (s : State) : (s.cmp1 r o).params = s.params := by
  simp [cmp1]
@[simp] theorem State.logic1_status (f) (r : Reg) (o : Operand) (s : State) :
    (s.logic1 f r o).status = s.status := by simp [logic1]
@[simp] theorem State.logic1_params (f) (r : Reg) (o : Operand) (s : State) :
    (s.logic1 f r o).params = s.params := by simp [logic1]

/-! ## The canonical form through the families' effects -/

theorem State.wf_setReg {s : State} (h : s.mem.wf) (r : Reg) (v : Byte) : (s.setReg r v).mem.wf := h

theorem State.wf_load1 {s : State} (h : s.mem.wf) (r : Reg) (a : Addr) : (s.load1 r a).mem.wf :=
  wf_incPC (wf_setReg h _ _)

theorem State.wf_store1 {s : State} (h : s.mem.wf) (a : Addr) (r : Reg) : (s.store1 a r).mem.wf :=
  wf_incPC (wf_memWrite h _ _)

theorem State.wf_push1 {s : State} (h : s.mem.wf) (v : Byte) : (s.push1 v).mem.wf :=
  wf_incPC (wf_decSP (wf_memWrite h _ _))

theorem State.wf_jumpIfNotZero {s : State} (h : s.mem.wf) (v : Byte) : (s.jumpIfNotZero v).mem.wf := by
  unfold jumpIfNotZero; split
  · exact wf_setPC h _
  · exact wf_incPC h

theorem State.wf_incPC_afterFetch {s : State} (h : s.mem.wf) (n : Nat) : (s.afterFetch n).incPC.mem.wf :=
  wf_incPC (wf_afterFetch n h)

theorem State.wf_add1 {s : State} (h : s.mem.wf) (r : Reg) (o : Operand) : (s.add1 r o).mem.wf := by
  unfold add1
  exact wf_incPC (wf_setReg (wf_setReg (wf_afterFetch 1 h) .f _) r _)

theorem State.wf_adc1 {s : State} (h : s.mem.wf) (r : Reg) (o : Operand) : (s.adc1 r o).mem.wf := by
  unfold adc1
  exact wf_incPC (wf_setReg (wf_setReg (wf_afterFetch 1 h) .f _) r _)

theorem State.wf_sbb1 {s : State} (h : s.mem.wf) (r : Reg) (o : Operand) : (s.sbb1 r o).mem.wf := by
  unfold sbb1
  exact wf_incPC (wf_setReg (wf_setReg (wf_afterFetch 1 h) .f _) r _)

theorem State.wf_cmp1 {s : State} (h : s.mem.wf) (r : Reg) (o : Operand) : (s.cmp1 r o).mem.wf :=
  wf_incPC (wf_afterFetch 1 h)

theorem State.wf_logic1 {s : State} (h : s.mem.wf) (f : Byte → Byte → Byte) (r : Reg) (o : Operand) : (s.logic1 f r o).mem.wf := by
  unfold logic1
  exact wf_incPC (wf_setReg (wf_afterFetch 1 h) r _)

/-! ## The host's run, one step at a time -/

theorem run_succ_of_next {s t : State} (h : step s = .next t) (n : Nat) :
    Host.Core.run Sys2Proof.core (n + 1) s = Host.Core.run Sys2Proof.core n t := by
  have hcore : Sys2Proof.core.step s = .next t := h
  exact (Host.Core.run.eq_2 Sys2Proof.core s n).trans (by rw [hcore])

theorem runLoop_succ_of_next {s t : State} (h : step s = .next t) (n : Nat) :
    runLoop (n + 1) s = runLoop n t := by rw [runLoop, h]

/-! ## The decoder on the bytes that the step fetches -/

/-- The bytes at PC always decode, to the instruction the step runs (30_encoding.md R85). -/
theorem decode_fetchedBytes (s : State) :
    decode s.fetchedBytes =
      .ok (s.fetchedInstr,
        [s.fetchedByte 1, s.fetchedByte 2].drop (operandBytes (s.fetchedByte 0))) := by
  rw [State.fetchedBytes, decode_cons _ _ (operandBytes_le_two _)]
  rfl

end Sys2Proof.Machine
end

