-- ==== Sys2Proof/Laws/Step.lean ====
section
/-! SUPPORT. What exec and step can do, said once: every instruction goes to one next state, `effect`. And when a
load succeeds (70_reset_and_hazards.md R211). -/

namespace Sys2Proof.Machine

/-- The next state of an instruction, over the shared effects. -/
def effect (s : State) : Instr → State
  | .mwImm r imm => ((s.afterFetch 1).setReg r imm).incPC
  | .mwReg r q => ((s.afterFetch 1).setReg r ((s.afterFetch 1).reg q)).incPC
  | .lwAbs r addr => (s.afterFetch 2).load1 r addr
  | .lwInd r => s.load1 r s.hl
  | .swAbs addr r => (s.afterFetch 2).store1 addr r
  | .swInd r => s.store1 s.hl r
  | .pushImm imm => (s.afterFetch 1).push1 imm
  | .pushReg r => s.push1 (s.val r)
  | .pop r => (s.incSP.setReg r (s.incSP.memRead s.incSP.sp)).incPC
  | .lda addr => (((s.afterFetch 2).setReg .h (hiByte addr)).setReg .l (loByte addr)).incPC
  | .jnzImm imm => (s.afterFetch 1).jumpIfNotZero imm
  | .jnzReg r => s.jumpIfNotZero (s.val r)
  | .inb => s
  | .outb => s
  | .addImm r imm => s.add1 r (.imm imm)
  | .addReg r q => s.add1 r (.reg q)
  | .adcImm r imm => s.adc1 r (.imm imm)
  | .adcReg r q => s.adc1 r (.reg q)
  | .andImm r imm => s.and1 r (.imm imm)
  | .andReg r q => s.and1 r (.reg q)
  | .orImm r imm => s.or1 r (.imm imm)
  | .orReg r q => s.or1 r (.reg q)
  | .norImm r imm => s.nor1 r (.imm imm)
  | .norReg r q => s.nor1 r (.reg q)
  | .cmpImm r imm => s.cmp1 r (.imm imm)
  | .cmpReg r q => s.cmp1 r (.reg q)
  | .sbbImm r imm => s.sbb1 r (.imm imm)
  | .sbbReg r q => s.sbb1 r (.reg q)

/-- Every arm of exec answers its effect: no instruction faults or is refused. -/
theorem exec_eq_effect (i : Instr) (s : State) : exec i s = .next (effect s i) := by cases i <;> rfl

/-- An instruction's next state is its effect and no other. -/
theorem effect_of_exec {i : Instr} {s t : State} (h : exec i s = .next t) : t = effect s i := by
  rw [exec_eq_effect] at h
  injection h with h
  exact h.symm

/-- A running core's step is the effect of the instruction at PC. -/
theorem step_of_running {s : State} (h : s.running = true) : step s = .next (effect s s.fetchedInstr) := by
  rw [step, if_pos h, exec_eq_effect]

/-- A core that is not running takes no step. -/
theorem step_of_not_running {s : State} (h : s.running = false) : step s = .fault .stopped := by
  rw [step, if_neg (by simp [h])]

/-- One case per way a step can end. -/
theorem step_cases {s t : State} (h : step s = .next t) :
    s.running = true ∧ t = effect s s.fetchedInstr := by
  cases hr : s.running with
  | true =>
    rw [step_of_running hr] at h
    injection h with h
    exact ⟨rfl, h.symm⟩
  | false =>
    rw [step_of_not_running hr] at h
    cases h

/-- Running is a matter of the StatusFlags alone (10_state.md R29). -/
theorem State.running_iff (s : State) :
    s.running = true ↔ (s.status.power = true ∧ s.status.error = false ∧ s.status.halt = false) := by
  simp [State.running, and_assoc]

/-! ## load -/

/-- The lengths a load takes. -/
theorem programWellFormed_iff (program : List Byte) :
    programWellFormed program = true ↔ (1 ≤ program.length ∧ program.length ≤ 65536) := by
  simp [programWellFormed]

theorem State.load_of_length {program : List Byte} (h : 1 ≤ program.length ∧ program.length ≤ 65536)
    (offset : Addr) (s : State) : s.load program offset = some (State.placeBytes program offset s).powerOn := by
  rw [State.load, if_pos ((programWellFormed_iff program).mpr h)]

theorem State.load_of_not_length {program : List Byte} (h : ¬(1 ≤ program.length ∧ program.length ≤ 65536))
    (offset : Addr) (s : State) : s.load program offset = none := by
  rw [State.load, if_neg (fun hp => h ((programWellFormed_iff program).mp hp))]

/-- A load that succeeds leaves the core running, whatever it was before. -/
theorem State.running_of_load {program : List Byte} {offset : Addr} {s t : State}
    (h : s.load program offset = some t) : t.running = true := by
  unfold State.load at h
  split at h
  · cases h; rfl
  · cases h

end Sys2Proof.Machine
end

