-- ==== Sys2Proof/Laws/Commute.lean ====
section
/-! SUPPORT. The shared effects do not look at the StatusFlags, and at the parameters only through Val and FlagsALU:
each commutes with a change of them. -/

namespace Sys2Proof.Machine

/-! ## withStatus -/

@[simp] theorem State.withStatus_regs (f : StatusFlags) (s : State) : (s.withStatus f).regs = s.regs := rfl
@[simp] theorem State.withStatus_mem (f : StatusFlags) (s : State) : (s.withStatus f).mem = s.mem := rfl
@[simp] theorem State.withStatus_status (f : StatusFlags) (s : State) : (s.withStatus f).status = f := rfl
theorem State.memRead_withStatus (f : StatusFlags) (s : State) (c : Addr) : (s.withStatus f).memRead c = s.memRead c := rfl
theorem State.reg_withStatus (f : StatusFlags) (s : State) (r : Reg) : (s.withStatus f).reg r = s.reg r := rfl
theorem State.sp_withStatus (f : StatusFlags) (s : State) : (s.withStatus f).sp = s.sp := rfl
theorem State.pc_withStatus (f : StatusFlags) (s : State) : (s.withStatus f).pc = s.pc := rfl
theorem State.hl_withStatus (f : StatusFlags) (s : State) : (s.withStatus f).hl = s.hl := rfl
theorem State.memWrite_withStatus (f : StatusFlags) (s : State) (c : Addr) (v : Byte) :
    (s.withStatus f).memWrite c v = (s.memWrite c v).withStatus f := rfl
theorem State.setReg_withStatus (f : StatusFlags) (s : State) (r : Reg) (v : Byte) : (s.withStatus f).setReg r v = (s.setReg r v).withStatus f := rfl
theorem State.setPC_withStatus (f : StatusFlags) (s : State) (t : Addr) : (s.withStatus f).setPC t = (s.setPC t).withStatus f := rfl

theorem State.inc16_withStatus (f : StatusFlags) (s : State) (h l : Addr) : (s.withStatus f).inc16 h l = (s.inc16 h l).withStatus f := by
  unfold inc16
  by_cases hc : s.memRead l + 1 = 0
  · rw [if_pos hc, if_pos (show (s.withStatus f).memRead l + 1 = 0 from hc)]; rfl
  · rw [if_neg hc, if_neg (show ¬((s.withStatus f).memRead l + 1 = 0) from hc)]; rfl

theorem State.dec16_withStatus (f : StatusFlags) (s : State) (h l : Addr) : (s.withStatus f).dec16 h l = (s.dec16 h l).withStatus f := by
  unfold dec16
  by_cases hc : s.memRead l = 0
  · rw [if_pos hc, if_pos (show (s.withStatus f).memRead l = 0 from hc)]; simp only [memRead_withStatus, memWrite_withStatus]
  · rw [if_neg hc, if_neg (show ¬(s.withStatus f).memRead l = 0 from hc)]; rfl

theorem State.incPC_withStatus (f : StatusFlags) (s : State) : (s.withStatus f).incPC = s.incPC.withStatus f := inc16_withStatus _ _ _ _
theorem State.incSP_withStatus (f : StatusFlags) (s : State) : (s.withStatus f).incSP = s.incSP.withStatus f := inc16_withStatus _ _ _ _
theorem State.decSP_withStatus (f : StatusFlags) (s : State) : (s.withStatus f).decSP = s.decSP.withStatus f := dec16_withStatus _ _ _ _

theorem State.afterFetch_withStatus (n : Nat) (f : StatusFlags) (s : State) : (s.withStatus f).afterFetch n = (s.afterFetch n).withStatus f := by
  induction n generalizing s with
  | zero => rfl
  | succ n ih => rw [afterFetch, incPC_withStatus, ih, afterFetch]

theorem State.load1_withStatus (f : StatusFlags) (s : State) (r : Reg) (c : Addr) : (s.withStatus f).load1 r c = (s.load1 r c).withStatus f := by
  rw [load1, memRead_withStatus, setReg_withStatus, incPC_withStatus, load1]

theorem State.store1_withStatus (f : StatusFlags) (s : State) (c : Addr) (r : Reg) : (s.withStatus f).store1 c r = (s.store1 c r).withStatus f := by
  rw [store1, reg_withStatus, memWrite_withStatus, incPC_withStatus, store1]

theorem State.push1_withStatus (f : StatusFlags) (s : State) (v : Byte) : (s.withStatus f).push1 v = (s.push1 v).withStatus f := by
  rw [push1, sp_withStatus, memWrite_withStatus, decSP_withStatus, incPC_withStatus, push1]

theorem State.jumpIfNotZero_withStatus (f : StatusFlags) (s : State) (v : Byte) :
    (s.withStatus f).jumpIfNotZero v = (s.jumpIfNotZero v).withStatus f := by
  unfold jumpIfNotZero
  rw [hl_withStatus, setPC_withStatus, incPC_withStatus]
  split <;> rfl

/-! ## withParams -/

@[simp] theorem State.withParams_regs (p : Params) (s : State) : (s.withParams p).regs = s.regs := rfl
@[simp] theorem State.withParams_mem (p : Params) (s : State) : (s.withParams p).mem = s.mem := rfl
@[simp] theorem State.withParams_params (p : Params) (s : State) : (s.withParams p).params = p := rfl
theorem State.memRead_withParams (p : Params) (s : State) (c : Addr) : (s.withParams p).memRead c = s.memRead c := rfl
theorem State.reg_withParams (p : Params) (s : State) (r : Reg) : (s.withParams p).reg r = s.reg r := rfl
theorem State.sp_withParams (p : Params) (s : State) : (s.withParams p).sp = s.sp := rfl
theorem State.pc_withParams (p : Params) (s : State) : (s.withParams p).pc = s.pc := rfl
theorem State.hl_withParams (p : Params) (s : State) : (s.withParams p).hl = s.hl := rfl
theorem State.memWrite_withParams (p : Params) (s : State) (c : Addr) (v : Byte) :
    (s.withParams p).memWrite c v = (s.memWrite c v).withParams p := rfl
theorem State.setReg_withParams (p : Params) (s : State) (r : Reg) (v : Byte) : (s.withParams p).setReg r v = (s.setReg r v).withParams p := rfl
theorem State.setPC_withParams (p : Params) (s : State) (t : Addr) : (s.withParams p).setPC t = (s.setPC t).withParams p := rfl

theorem State.inc16_withParams (p : Params) (s : State) (h l : Addr) : (s.withParams p).inc16 h l = (s.inc16 h l).withParams p := by
  unfold inc16
  by_cases hc : s.memRead l + 1 = 0
  · rw [if_pos hc, if_pos (show (s.withParams p).memRead l + 1 = 0 from hc)]; rfl
  · rw [if_neg hc, if_neg (show ¬((s.withParams p).memRead l + 1 = 0) from hc)]; rfl

theorem State.dec16_withParams (p : Params) (s : State) (h l : Addr) : (s.withParams p).dec16 h l = (s.dec16 h l).withParams p := by
  unfold dec16
  by_cases hc : s.memRead l = 0
  · rw [if_pos hc, if_pos (show (s.withParams p).memRead l = 0 from hc)]; simp only [memRead_withParams, memWrite_withParams]
  · rw [if_neg hc, if_neg (show ¬(s.withParams p).memRead l = 0 from hc)]; rfl

theorem State.incPC_withParams (p : Params) (s : State) : (s.withParams p).incPC = s.incPC.withParams p := inc16_withParams _ _ _ _
theorem State.incSP_withParams (p : Params) (s : State) : (s.withParams p).incSP = s.incSP.withParams p := inc16_withParams _ _ _ _
theorem State.decSP_withParams (p : Params) (s : State) : (s.withParams p).decSP = s.decSP.withParams p := dec16_withParams _ _ _ _

theorem State.afterFetch_withParams (n : Nat) (p : Params) (s : State) : (s.withParams p).afterFetch n = (s.afterFetch n).withParams p := by
  induction n generalizing s with
  | zero => rfl
  | succ n ih => rw [afterFetch, incPC_withParams, ih, afterFetch]

theorem State.load1_withParams (p : Params) (s : State) (r : Reg) (c : Addr) : (s.withParams p).load1 r c = (s.load1 r c).withParams p := by
  rw [load1, memRead_withParams, setReg_withParams, incPC_withParams, load1]

theorem State.store1_withParams (p : Params) (s : State) (c : Addr) (r : Reg) : (s.withParams p).store1 c r = (s.store1 c r).withParams p := by
  rw [store1, reg_withParams, memWrite_withParams, incPC_withParams, store1]

theorem State.push1_withParams (p : Params) (s : State) (v : Byte) : (s.withParams p).push1 v = (s.push1 v).withParams p := by
  rw [push1, sp_withParams, memWrite_withParams, decSP_withParams, incPC_withParams, push1]

theorem State.jumpIfNotZero_withParams (p : Params) (s : State) (v : Byte) :
    (s.withParams p).jumpIfNotZero v = (s.jumpIfNotZero v).withParams p := by
  unfold jumpIfNotZero
  rw [hl_withParams, setPC_withParams, incPC_withParams]
  split <;> rfl

/-! ## Val, FlagsALU and the operations over them, without a look at the StatusFlags -/

theorem State.val_withStatus (f : StatusFlags) (s : State) (r : Reg) : (s.withStatus f).val r = s.val r := rfl
theorem State.operandValue_withStatus (f : StatusFlags) (s : State) (o : Operand) :
    (s.withStatus f).operandValue o = s.operandValue o := by cases o <;> rfl
theorem State.flags_withStatus (f : StatusFlags) (s : State) (a b : Byte) :
    (s.withStatus f).flags a b = (s.flags a b).withStatus f := rfl
theorem State.carry_withStatus (f : StatusFlags) (s : State) : (s.withStatus f).carry = s.carry := rfl
theorem State.borrow_withStatus (f : StatusFlags) (s : State) : (s.withStatus f).borrow = s.borrow := rfl

/-! ## Val under another FLAGS_VARIANT, FlagsALU under another REG_OPERAND -/

/-- `Val` looks at `REG_OPERAND` alone (30_encoding.md R89). -/
theorem State.val_withParams {p : Params} {s : State} (h : p.regOperand = s.params.regOperand) (r : Reg) :
    (s.withParams p).val r = s.val r := by
  simp only [val, withParams_params, h, reg_withParams]

/-- FlagsALU looks at `FLAGS_VARIANT` alone (42_arithmetic_logic.md R150). -/
theorem State.flags_withParams {p : Params} {s : State} (h : p.flagsVariant = s.params.flagsVariant) (a b : Byte) :
    (s.withParams p).flags a b = (s.flags a b).withParams p := by
  rw [flags, withParams_params, h, reg_withParams, setReg_withParams, flags]

/-! ## The seven ALU operations -/

theorem State.add1_withStatus (f : StatusFlags) (s : State) (r : Reg) (o : Operand) :
    (s.withStatus f).add1 r o = (s.add1 r o).withStatus f := by
  simp only [add1, afterFetch_withStatus, operandValue_withStatus, reg_withStatus, flags_withStatus,
    setReg_withStatus, incPC_withStatus]

theorem State.adc1_withStatus (f : StatusFlags) (s : State) (r : Reg) (o : Operand) :
    (s.withStatus f).adc1 r o = (s.adc1 r o).withStatus f := by
  simp only [adc1, afterFetch_withStatus, operandValue_withStatus, reg_withStatus, carry_withStatus, flags_withStatus,
    setReg_withStatus, incPC_withStatus]

theorem State.sbb1_withStatus (f : StatusFlags) (s : State) (r : Reg) (o : Operand) :
    (s.withStatus f).sbb1 r o = (s.sbb1 r o).withStatus f := by
  simp only [sbb1, afterFetch_withStatus, operandValue_withStatus, reg_withStatus, borrow_withStatus, flags_withStatus,
    setReg_withStatus, incPC_withStatus]

theorem State.cmp1_withStatus (f : StatusFlags) (s : State) (r : Reg) (o : Operand) :
    (s.withStatus f).cmp1 r o = (s.cmp1 r o).withStatus f := by
  simp only [cmp1, afterFetch_withStatus, operandValue_withStatus, reg_withStatus, flags_withStatus, incPC_withStatus]

theorem State.logic1_withStatus (f : StatusFlags) (s : State) (g : Byte → Byte → Byte) (r : Reg) (o : Operand) :
    (s.withStatus f).logic1 g r o = (s.logic1 g r o).withStatus f := by
  simp only [logic1, afterFetch_withStatus, operandValue_withStatus, reg_withStatus, setReg_withStatus, incPC_withStatus]

theorem State.carry_withParams (p : Params) (s : State) : (s.withParams p).carry = s.carry := rfl
theorem State.borrow_withParams (p : Params) (s : State) : (s.withParams p).borrow = s.borrow := rfl

/-- An operand does not see the parameters if it is a literal, or if `REG_OPERAND` is the same. -/
theorem State.operandValue_withParams {p : Params} {s : State} {o : Operand}
    (h : (∃ v, o = .imm v) ∨ p.regOperand = s.params.regOperand) : (s.withParams p).operandValue o = s.operandValue o := by
  cases o with
  | imm v => rfl
  | reg q =>
    refine val_withParams ?_ q
    obtain ⟨v, hv⟩ | h := h
    · cases hv
    · exact h

theorem State.logic1_withParams (p : Params) (s : State) (o : Operand) (h : (∃ v, o = .imm v) ∨ p.regOperand = s.params.regOperand)
    (g : Byte → Byte → Byte) (r : Reg) : (s.withParams p).logic1 g r o = (s.logic1 g r o).withParams p := by
  have h' : (∃ v, o = .imm v) ∨ p.regOperand = (s.afterFetch 1).params.regOperand := by rwa [State.afterFetch_params]
  simp only [logic1, afterFetch_withParams, operandValue_withParams h', reg_withParams, setReg_withParams, incPC_withParams]

theorem State.add1_withParams (p : Params) (s : State) (o : Operand) (h : (∃ v, o = .imm v) ∨ p.regOperand = s.params.regOperand)
    (hf : p.flagsVariant = s.params.flagsVariant) (r : Reg) : (s.withParams p).add1 r o = (s.add1 r o).withParams p := by
  have h' : (∃ v, o = .imm v) ∨ p.regOperand = (s.afterFetch 1).params.regOperand := by rwa [State.afterFetch_params]
  have hf' : p.flagsVariant = (s.afterFetch 1).params.flagsVariant := by rwa [State.afterFetch_params]
  simp only [add1, afterFetch_withParams, operandValue_withParams h', reg_withParams,
    flags_withParams hf', setReg_withParams, incPC_withParams]

theorem State.adc1_withParams (p : Params) (s : State) (o : Operand) (h : (∃ v, o = .imm v) ∨ p.regOperand = s.params.regOperand)
    (hf : p.flagsVariant = s.params.flagsVariant) (r : Reg) : (s.withParams p).adc1 r o = (s.adc1 r o).withParams p := by
  have h' : (∃ v, o = .imm v) ∨ p.regOperand = (s.afterFetch 1).params.regOperand := by rwa [State.afterFetch_params]
  have hf' : p.flagsVariant = (s.afterFetch 1).params.flagsVariant := by rwa [State.afterFetch_params]
  simp only [adc1, afterFetch_withParams, operandValue_withParams h', reg_withParams, carry_withParams,
    flags_withParams hf', setReg_withParams, incPC_withParams]

theorem State.sbb1_withParams (p : Params) (s : State) (o : Operand) (h : (∃ v, o = .imm v) ∨ p.regOperand = s.params.regOperand)
    (hf : p.flagsVariant = s.params.flagsVariant) (r : Reg) : (s.withParams p).sbb1 r o = (s.sbb1 r o).withParams p := by
  have h' : (∃ v, o = .imm v) ∨ p.regOperand = (s.afterFetch 1).params.regOperand := by rwa [State.afterFetch_params]
  have hf' : p.flagsVariant = (s.afterFetch 1).params.flagsVariant := by rwa [State.afterFetch_params]
  simp only [sbb1, afterFetch_withParams, operandValue_withParams h', reg_withParams, borrow_withParams,
    flags_withParams hf', setReg_withParams, incPC_withParams]

theorem State.cmp1_withParams (p : Params) (s : State) (o : Operand) (h : (∃ v, o = .imm v) ∨ p.regOperand = s.params.regOperand)
    (hf : p.flagsVariant = s.params.flagsVariant) (r : Reg) : (s.withParams p).cmp1 r o = (s.cmp1 r o).withParams p := by
  have h' : (∃ v, o = .imm v) ∨ p.regOperand = (s.afterFetch 1).params.regOperand := by rwa [State.afterFetch_params]
  have hf' : p.flagsVariant = (s.afterFetch 1).params.flagsVariant := by rwa [State.afterFetch_params]
  simp only [cmp1, afterFetch_withParams, operandValue_withParams h', reg_withParams,
    flags_withParams hf', incPC_withParams]

end Sys2Proof.Machine
end

