-- ==== Sys2Proof/Laws/Frames.lean ====
section
/-! SUPPORT. What each shared effect leaves as it was, as one OnlyChanges fact per effect. -/

namespace Sys2Proof.Machine

theorem OnlyChanges.refl (s : State) (rs : List Reg) (cs : List Addr) : OnlyChanges s s rs cs :=
  ⟨fun _ _ => rfl, fun _ _ => rfl, rfl, rfl⟩

/-- A change confined to less is confined to more. -/
theorem OnlyChanges.weaken {s t : State} {rs rs' : List Reg} {cs cs' : List Addr} (h : OnlyChanges s t rs cs)
    (hr : ∀ q ∈ rs, q ∈ rs') (hc : ∀ a ∈ cs, a ∈ cs') : OnlyChanges s t rs' cs' :=
  ⟨fun q hq => h.regs q (fun hm => hq (hr q hm)), fun a ha => h.cells a (fun hm => ha (hc a hm)), h.status,
    h.params⟩

/-- Changes one after the other are confined to what either may change. -/
theorem OnlyChanges.trans {s t u : State} {rs rs' : List Reg} {cs cs' : List Addr} (h : OnlyChanges s t rs cs)
    (h' : OnlyChanges t u rs' cs') : OnlyChanges s u (rs ++ rs') (cs ++ cs') := by
  refine ⟨fun q hq => ?_, fun a ha => ?_, h'.status.trans h.status, h'.params.trans h.params⟩
  · have hq := not_or.mp (fun hm => hq (List.mem_append.mpr hm))
    exact (h'.regs q hq.2).trans (h.regs q hq.1)
  · have ha := not_or.mp (fun hm => ha (List.mem_append.mpr hm))
    exact (h'.cells a ha.2).trans (h.cells a ha.1)

theorem not_mem_pcCells {a : Addr} (h : a ∉ pcCells) : a ≠ pchCell ∧ a ≠ pclCell := by
  simpa [pcCells] using h

theorem not_mem_spCells {a : Addr} (h : a ∉ spCells) : a ≠ sphCell ∧ a ≠ splCell := by
  simpa [spCells] using h

theorem State.onlyChanges_setReg (s : State) (r : Reg) (v : Byte) : OnlyChanges s (s.setReg r v) [r] [] :=
  ⟨fun q hq => reg_setReg_ne s v (by simpa using hq), fun _ _ => rfl, rfl, rfl⟩

theorem State.onlyChanges_memWrite (s : State) (a : Addr) (v : Byte) : OnlyChanges s (s.memWrite a v) [] [a] :=
  ⟨fun _ _ => rfl, fun b hb => memRead_memWrite_ne s v (by simpa using hb), rfl, rfl⟩

theorem State.onlyChanges_incPC (s : State) : OnlyChanges s s.incPC [] pcCells := by
  refine ⟨fun q _ => reg_incPC s q, fun a ha => ?_, incPC_status s, incPC_params s⟩
  obtain ⟨hh, hl⟩ := not_mem_pcCells ha
  rw [memRead_incPC, if_neg hh, if_neg hl]

theorem State.onlyChanges_incSP (s : State) : OnlyChanges s s.incSP [] spCells := by
  refine ⟨fun q _ => reg_incSP s q, fun a ha => ?_, incSP_status s, incSP_params s⟩
  obtain ⟨hh, hl⟩ := not_mem_spCells ha
  rw [memRead_incSP, if_neg hh, if_neg hl]

theorem State.onlyChanges_decSP (s : State) : OnlyChanges s s.decSP [] spCells := by
  refine ⟨fun q _ => reg_decSP s q, fun a ha => ?_, decSP_status s, decSP_params s⟩
  obtain ⟨hh, hl⟩ := not_mem_spCells ha
  rw [memRead_decSP, if_neg hh, if_neg hl]

theorem State.onlyChanges_afterFetch (n : Nat) (s : State) : OnlyChanges s (s.afterFetch n) [] pcCells := by
  refine ⟨fun q _ => reg_afterFetch n s q, fun a ha => ?_, afterFetch_status n s, afterFetch_params n s⟩
  obtain ⟨hh, hl⟩ := not_mem_pcCells ha
  rw [memRead_afterFetch, if_neg hh, if_neg hl]

/-- An effect after the operand fetches: the fetches add nothing to an effect that may move PC anyway. -/
theorem OnlyChanges.of_afterFetch {s t : State} {n : Nat} {rs : List Reg} {cs : List Addr}
    (h : OnlyChanges (s.afterFetch n) t rs cs) (hpc : ∀ a ∈ pcCells, a ∈ cs) : OnlyChanges s t rs cs :=
  ((s.onlyChanges_afterFetch n).trans h).weaken (by simp)
    (fun a ha => (List.mem_append.mp ha).elim (hpc a) id)

theorem State.onlyChanges_load1 (r : Reg) (a : Addr) (s : State) : OnlyChanges s (s.load1 r a) [r] pcCells :=
  (s.onlyChanges_setReg r (s.memRead a)).trans (onlyChanges_incPC _) |>.weaken (by simp) (by simp)

theorem State.onlyChanges_store1 (a : Addr) (r : Reg) (s : State) :
    OnlyChanges s (s.store1 a r) [] (a :: pcCells) :=
  (s.onlyChanges_memWrite a (s.reg r)).trans (onlyChanges_incPC _) |>.weaken (by simp) (by simp)

theorem State.onlyChanges_push1 (v : Byte) (s : State) :
    OnlyChanges s (s.push1 v) [] (s.sp :: (spCells ++ pcCells)) :=
  ((s.onlyChanges_memWrite s.sp v).trans (onlyChanges_decSP _)).trans (onlyChanges_incPC _) |>.weaken
    (by simp) (by simp)

theorem State.onlyChanges_jumpIfNotZero (v : Byte) (s : State) :
    OnlyChanges s (s.jumpIfNotZero v) [] pcCells := by
  refine ⟨fun q _ => reg_jumpIfNotZero v s q, fun a ha => ?_, jumpIfNotZero_status v s, jumpIfNotZero_params v s⟩
  obtain ⟨hh, hl⟩ := not_mem_pcCells ha
  exact memRead_jumpIfNotZero v s a hh hl

theorem State.onlyChanges_add1 (r : Reg) (o : Operand) (s : State) :
    OnlyChanges s (s.add1 r o) [r, .f] pcCells := by
  refine ⟨fun q hq => ?_, fun a ha => ?_, add1_status r o s, add1_params r o s⟩
  · obtain ⟨hr, hf⟩ : q ≠ r ∧ q ≠ .f := by simpa using hq
    rw [reg_add1, if_neg hr, if_neg hf]
  · obtain ⟨hh, hl⟩ := not_mem_pcCells ha
    rw [memRead_add1, memRead_incPC_afterFetch, if_neg hh, if_neg hl]

theorem State.onlyChanges_adc1 (r : Reg) (o : Operand) (s : State) :
    OnlyChanges s (s.adc1 r o) [r, .f] pcCells := by
  refine ⟨fun q hq => ?_, fun a ha => ?_, adc1_status r o s, adc1_params r o s⟩
  · obtain ⟨hr, hf⟩ : q ≠ r ∧ q ≠ .f := by simpa using hq
    rw [reg_adc1, if_neg hr, if_neg hf]
  · obtain ⟨hh, hl⟩ := not_mem_pcCells ha
    rw [memRead_adc1, memRead_incPC_afterFetch, if_neg hh, if_neg hl]

theorem State.onlyChanges_sbb1 (r : Reg) (o : Operand) (s : State) :
    OnlyChanges s (s.sbb1 r o) [r, .f] pcCells := by
  refine ⟨fun q hq => ?_, fun a ha => ?_, sbb1_status r o s, sbb1_params r o s⟩
  · obtain ⟨hr, hf⟩ : q ≠ r ∧ q ≠ .f := by simpa using hq
    rw [reg_sbb1, if_neg hr, if_neg hf]
  · obtain ⟨hh, hl⟩ := not_mem_pcCells ha
    rw [memRead_sbb1, memRead_incPC_afterFetch, if_neg hh, if_neg hl]

theorem State.onlyChanges_cmp1 (r : Reg) (o : Operand) (s : State) :
    OnlyChanges s (s.cmp1 r o) [.f] pcCells := by
  refine ⟨fun q hq => ?_, fun a ha => ?_, cmp1_status r o s, cmp1_params r o s⟩
  · rw [reg_cmp1, if_neg (by simpa using hq)]
  · obtain ⟨hh, hl⟩ := not_mem_pcCells ha
    rw [memRead_cmp1, memRead_incPC_afterFetch, if_neg hh, if_neg hl]

theorem State.onlyChanges_logic1 (f : Byte → Byte → Byte) (r : Reg) (o : Operand) (s : State) :
    OnlyChanges s (s.logic1 f r o) [r] pcCells := by
  refine ⟨fun q hq => ?_, fun a ha => ?_, logic1_status f r o s, logic1_params f r o s⟩
  · rw [reg_logic1, if_neg (by simpa using hq)]
  · obtain ⟨hh, hl⟩ := not_mem_pcCells ha
    rw [memRead_logic1, memRead_incPC_afterFetch, if_neg hh, if_neg hl]

end Sys2Proof.Machine
end

