-- ==== Sys2Proof/Laws/PerInstr.lean ====
section
/-! SUPPORT. The families of LAWS.json: facts about every instruction as syntax, one lemma per constructor. -/

namespace Sys2Proof.Laws.EncodeLength

/-- The encoding of an instruction has the length that 30_encoding.md R83 gives it. -/
def Statement (i : Instr) : Prop := (encode i).length = i.length

theorem mwImm (r : Reg) (imm : Byte) : Statement (.mwImm r imm) := rfl
theorem mwReg (r : Reg) (s : Reg) : Statement (.mwReg r s) := rfl
theorem lwAbs (r : Reg) (addr : Addr) : Statement (.lwAbs r addr) := rfl
theorem lwInd (r : Reg) : Statement (.lwInd r) := rfl
theorem swAbs (addr : Addr) (r : Reg) : Statement (.swAbs addr r) := rfl
theorem swInd (r : Reg) : Statement (.swInd r) := rfl
theorem pushImm (imm : Byte) : Statement (.pushImm imm) := rfl
theorem pushReg (r : Reg) : Statement (.pushReg r) := rfl
theorem pop (r : Reg) : Statement (.pop r) := rfl
theorem lda (addr : Addr) : Statement (.lda addr) := rfl
theorem jnzImm (imm : Byte) : Statement (.jnzImm imm) := rfl
theorem jnzReg (r : Reg) : Statement (.jnzReg r) := rfl
theorem inb : Statement .inb := rfl
theorem outb : Statement .outb := rfl
theorem addImm (r : Reg) (imm : Byte) : Statement (.addImm r imm) := rfl
theorem addReg (r : Reg) (s : Reg) : Statement (.addReg r s) := rfl
theorem adcImm (r : Reg) (imm : Byte) : Statement (.adcImm r imm) := rfl
theorem adcReg (r : Reg) (s : Reg) : Statement (.adcReg r s) := rfl
theorem andImm (r : Reg) (imm : Byte) : Statement (.andImm r imm) := rfl
theorem andReg (r : Reg) (s : Reg) : Statement (.andReg r s) := rfl
theorem orImm (r : Reg) (imm : Byte) : Statement (.orImm r imm) := rfl
theorem orReg (r : Reg) (s : Reg) : Statement (.orReg r s) := rfl
theorem norImm (r : Reg) (imm : Byte) : Statement (.norImm r imm) := rfl
theorem norReg (r : Reg) (s : Reg) : Statement (.norReg r s) := rfl
theorem cmpImm (r : Reg) (imm : Byte) : Statement (.cmpImm r imm) := rfl
theorem cmpReg (r : Reg) (s : Reg) : Statement (.cmpReg r s) := rfl
theorem sbbImm (r : Reg) (imm : Byte) : Statement (.sbbImm r imm) := rfl
theorem sbbReg (r : Reg) (s : Reg) : Statement (.sbbReg r s) := rfl

end Sys2Proof.Laws.EncodeLength

namespace Sys2Proof.Laws.OperandCount

/-- The first byte of an encoding alone tells how many bytes follow it (30_encoding.md R87). -/
def Statement (i : Instr) : Prop := ∃ b0 operands, encode i = b0 :: operands ∧ operandBytes b0 = operands.length

theorem mwImm (r : Reg) (imm : Byte) : Statement (.mwImm r imm) := ⟨_, _, rfl, by simp [operandBytes, formatOf, operandCount]⟩
theorem mwReg (r : Reg) (s : Reg) : Statement (.mwReg r s) := ⟨_, _, rfl, by simp [operandBytes, formatOf, operandCount]⟩
theorem lwAbs (r : Reg) (addr : Addr) : Statement (.lwAbs r addr) := ⟨_, _, rfl, by simp [operandBytes, formatOf, operandCount]⟩
theorem lwInd (r : Reg) : Statement (.lwInd r) := ⟨_, _, rfl, by simp [operandBytes, formatOf, operandCount]⟩
theorem swAbs (addr : Addr) (r : Reg) : Statement (.swAbs addr r) := ⟨_, _, rfl, by simp [operandBytes, formatOf, operandCount]⟩
theorem swInd (r : Reg) : Statement (.swInd r) := ⟨_, _, rfl, by simp [operandBytes, formatOf, operandCount]⟩
theorem pushImm (imm : Byte) : Statement (.pushImm imm) := ⟨_, _, rfl, by simp [operandBytes, formatOf, operandCount]⟩
theorem pushReg (r : Reg) : Statement (.pushReg r) := ⟨_, _, rfl, by simp [operandBytes, formatOf, operandCount]⟩
theorem pop (r : Reg) : Statement (.pop r) := ⟨_, _, rfl, by simp [operandBytes, formatOf, operandCount]⟩
theorem lda (addr : Addr) : Statement (.lda addr) := ⟨_, _, rfl, by simp [operandBytes, formatOf, operandCount]⟩
theorem jnzImm (imm : Byte) : Statement (.jnzImm imm) := ⟨_, _, rfl, by simp [operandBytes, formatOf, operandCount]⟩
theorem jnzReg (r : Reg) : Statement (.jnzReg r) := ⟨_, _, rfl, by simp [operandBytes, formatOf, operandCount]⟩
theorem inb : Statement .inb := ⟨_, _, rfl, by simp [operandBytes, formatOf, operandCount]⟩
theorem outb : Statement .outb := ⟨_, _, rfl, by simp [operandBytes, formatOf, operandCount]⟩
theorem addImm (r : Reg) (imm : Byte) : Statement (.addImm r imm) := ⟨_, _, rfl, by simp [operandBytes, formatOf, operandCount]⟩
theorem addReg (r : Reg) (s : Reg) : Statement (.addReg r s) := ⟨_, _, rfl, by simp [operandBytes, formatOf, operandCount]⟩
theorem adcImm (r : Reg) (imm : Byte) : Statement (.adcImm r imm) := ⟨_, _, rfl, by simp [operandBytes, formatOf, operandCount]⟩
theorem adcReg (r : Reg) (s : Reg) : Statement (.adcReg r s) := ⟨_, _, rfl, by simp [operandBytes, formatOf, operandCount]⟩
theorem andImm (r : Reg) (imm : Byte) : Statement (.andImm r imm) := ⟨_, _, rfl, by simp [operandBytes, formatOf, operandCount]⟩
theorem andReg (r : Reg) (s : Reg) : Statement (.andReg r s) := ⟨_, _, rfl, by simp [operandBytes, formatOf, operandCount]⟩
theorem orImm (r : Reg) (imm : Byte) : Statement (.orImm r imm) := ⟨_, _, rfl, by simp [operandBytes, formatOf, operandCount]⟩
theorem orReg (r : Reg) (s : Reg) : Statement (.orReg r s) := ⟨_, _, rfl, by simp [operandBytes, formatOf, operandCount]⟩
theorem norImm (r : Reg) (imm : Byte) : Statement (.norImm r imm) := ⟨_, _, rfl, by simp [operandBytes, formatOf, operandCount]⟩
theorem norReg (r : Reg) (s : Reg) : Statement (.norReg r s) := ⟨_, _, rfl, by simp [operandBytes, formatOf, operandCount]⟩
theorem cmpImm (r : Reg) (imm : Byte) : Statement (.cmpImm r imm) := ⟨_, _, rfl, by simp [operandBytes, formatOf, operandCount]⟩
theorem cmpReg (r : Reg) (s : Reg) : Statement (.cmpReg r s) := ⟨_, _, rfl, by simp [operandBytes, formatOf, operandCount]⟩
theorem sbbImm (r : Reg) (imm : Byte) : Statement (.sbbImm r imm) := ⟨_, _, rfl, by simp [operandBytes, formatOf, operandCount]⟩
theorem sbbReg (r : Reg) (s : Reg) : Statement (.sbbReg r s) := ⟨_, _, rfl, by simp [operandBytes, formatOf, operandCount]⟩

end Sys2Proof.Laws.OperandCount
end

