-- ==== Sys2Proof/Tests/Slice0.lean ====
section
/-! SUPPORT. The tests. Expected values come from spec/: the encodings of 30_encoding.md R80 to R97 written out bit by
bit, the vectors of 95_test_vectors.md (named in each docstring) and, for the witnesses, the premises of the
statements in Certificates/Slice0/Obligations.lean. -/

namespace Sys2Proof.Tests

open Sys2Proof.Machine

/-! ## Helpers -/

/-- Registers that all hold 0. -/
def zeroRegs : RegFile := ⟨0, 0, 0, 0, 0, 0, 0, 0⟩

/-- A powered core with `bytes` at `pc`, PC there, the registers given, and some cells written first. -/
def start (pc : Addr) (bytes : List Byte) (regs : RegFile := zeroRegs) (cells : List (Addr × Byte) := [])
    (params : Params := defaultParams) : State :=
  let s := cells.foldl (fun s c => s.memWrite c.1 c.2) (State.construct regs.get params)
  ((State.placeBytes bytes pc s).setPC pc).powerOn

/-- The cells of a stack pointer. -/
def spAt (v : Addr) : List (Addr × Byte) := [(sphCell, hiByte v), (splCell, loByte v)]

/-- The state after one step, where there is one. -/
def after (s : State) : State :=
  match step s with
  | .next t => t
  | .fault _ => s
  | .refused _ => s

/-- `REG_OPERAND = contents`. -/
def contentsParams : Params := ⟨.contents, .reference⟩
/-- `FLAGS_VARIANT = intended`. -/
def intendedParams : Params := ⟨.index, .intended⟩

/-- What a byte list decodes to. -/
def instrOf (bytes : List Byte) : Option Instr :=
  match decode bytes with
  | .ok (i, _) => some i
  | .error _ => none

/-! ## Decoding: every constructor, its word written out from its row of R97 -/

theorem test_decode_mw :
    instrOf [0b00000111, 0x0C] = some (.mwImm .f 0x0C) ∧ instrOf [0b00001000, 0b00000001] = some (.mwReg .a .b) := by decide
theorem test_decode_lw :
    instrOf [0b00010001, 0xC0, 0x01] = some (.lwAbs .b 0xC001) ∧ instrOf [0b00011101] = some (.lwInd .h) := by decide
theorem test_decode_sw :
    instrOf [0b00100010, 0xFF, 0xFC] = some (.swAbs 0xFFFC .c) ∧ instrOf [0b00101001] = some (.swInd .b) := by decide
theorem test_decode_push :
    instrOf [0b00110000, 0x42] = some (.pushImm 0x42) ∧ instrOf [0b00111110] = some (.pushReg .z) := by decide
theorem test_decode_pop : instrOf [0b01000100] = some (.pop .l) := by decide
theorem test_decode_lda : instrOf [0b01010000, 0x12, 0x34] = some (.lda 0x1234) := by decide
theorem test_decode_jnz :
    instrOf [0b01100000, 0x01] = some (.jnzImm 0x01) ∧ instrOf [0b01101111] = some (.jnzReg .f) := by decide
theorem test_decode_io : instrOf [0b01110000] = some .inb ∧ instrOf [0b10000000] = some .outb := by decide
theorem test_decode_add :
    instrOf [0b10010000, 0x20] = some (.addImm .a 0x20) ∧ instrOf [0b10011011, 0b00000101] = some (.addReg .d .h) := by decide
theorem test_decode_adc :
    instrOf [0b10100000, 0x01] = some (.adcImm .a 0x01) ∧ instrOf [0b10101100, 0b00000110] = some (.adcReg .l .z) := by decide
theorem test_decode_and :
    instrOf [0b10110101, 0x3C] = some (.andImm .h 0x3C) ∧ instrOf [0b10111000, 0b00000001] = some (.andReg .a .b) := by decide
theorem test_decode_or :
    instrOf [0b11000110, 0x0F] = some (.orImm .z 0x0F) ∧ instrOf [0b11001010, 0b00000011] = some (.orReg .c .d) := by decide
theorem test_decode_nor :
    instrOf [0b11010001, 0x00] = some (.norImm .b 0x00) ∧ instrOf [0b11011111, 0b00000000] = some (.norReg .f .a) := by decide
theorem test_decode_cmp :
    instrOf [0b11100000, 0x0A] = some (.cmpImm .a 0x0A) ∧ instrOf [0b11101001, 0b00000100] = some (.cmpReg .b .l) := by decide
theorem test_decode_sbb :
    instrOf [0b11110000, 0x03] = some (.sbbImm .a 0x03) ∧ instrOf [0b11111111, 0b00000111] = some (.sbbReg .f .f) := by decide

/-- 95_test_vectors.md V2, MW-4, LDA-2, PO-5: the bits that R86 says are ignored. -/
theorem test_decode_ignored_bits :
    instrOf [0x08, 0xF9] = some (.mwReg .a .b) ∧ instrOf [0x33, 0x42] = some (.pushImm 0x42) ∧
    instrOf [0x4C] = some (.pop .l) ∧ instrOf [0x5F, 0x12, 0x34] = some (.lda 0x1234) ∧
    instrOf [0x67, 0x05] = some (.jnzImm 0x05) ∧ instrOf [0x7F] = some .inb ∧ instrOf [0x8B] = some .outb := by decide

/-- Too few bytes are the only reason the decoder gives no instruction, by name. -/
theorem test_decode_short_lists :
    decode [] = .error .noBytes ∧ decode [0x10, 0xC0] = .error .missingOperandBytes ∧
    decode [0x90] = .error .missingOperandBytes := ⟨rfl, rfl, rfl⟩

/-- A table word's first byte is its least significant byte. -/
theorem test_decode_table_word :
    decodeTableWord 24 0x3412_50 = some (.lda 0x1234) ∧ decodeTableWord 8 0x4C = some (.pop .l) ∧
    decodeTableWord 0 0x70 = some .inb := by decide

/-! ## Well-formedness: what each check refuses (70_reset_and_hazards.md R211) -/

theorem test_program_empty_is_refused : programWellFormed [] = false ∧ (State.reset.load [] 0).isNone = true := by decide

theorem test_program_too_long_is_refused (s : State) :
    programWellFormed (List.replicate 65537 0) = false ∧ s.load (List.replicate 65537 0) 0 = none := by
  have h : programWellFormed (List.replicate 65537 0) = false := by rw [programWellFormed, List.length_replicate]; rfl
  exact ⟨h, by rw [State.load, h]; rfl⟩

theorem test_program_longest_is_accepted : programWellFormed (List.replicate 65536 0) = true := by
  rw [programWellFormed, List.length_replicate]; rfl

/-! ## Pairs and FlagsALU -/

/-- V1: `Inc16`. -/
theorem test_incSP :
    (start 0 [] zeroRegs (spAt 0x00FF)).incSP.sp = 0x0100 ∧ (start 0 [] zeroRegs (spAt 0xFFFF)).incSP.sp = 0x0000 ∧
    (start 0 [] zeroRegs (spAt 0x12FF)).incSP.sp = 0x1300 := by decide

/-- V1: `Dec16`. -/
theorem test_decSP :
    (start 0 [] zeroRegs (spAt 0x0100)).decSP.sp = 0x00FF ∧ (start 0 [] zeroRegs (spAt 0x0000)).decSP.sp = 0xFFFF ∧
    (start 0 [] zeroRegs (spAt 0xFEFF)).decSP.sp = 0xFEFE := by decide

/-- W1: `IncPC`. -/
theorem test_incPC : (start 0x00FF []).incPC.pc = 0x0100 ∧ (start 0xFFFF []).incPC.pc = 0x0000 := by decide

/-- V9, column `reference`, and the two lines below the table. -/
theorem test_flags_reference :
    flagsALU .reference 0x05 0x0A 0xF0 = 0xF3 ∧ flagsALU .reference 0x0A 0x05 0xF0 = 0xF0 ∧
    flagsALU .reference 0x05 0x05 0xF0 = 0xF0 ∧ flagsALU .reference 0xFF 0x01 0xF0 = 0xF0 ∧
    flagsALU .reference 0x01 0xFF 0xF0 = 0xF3 ∧ flagsALU .reference 5 10 0x0C = 0x0F ∧
    flagsALU .reference 10 5 0x0C = 0x0C := by decide

/-- V9, column `intended`. -/
theorem test_flags_intended :
    flagsALU .intended 0x05 0x0A 0xF0 = 0xF9 ∧ flagsALU .intended 0x0A 0x05 0xF0 = 0xF0 ∧
    flagsALU .intended 0x00 0x00 0xF0 = 0xF2 ∧ flagsALU .intended 0xFF 0x01 0xF0 = 0xF4 ∧
    flagsALU .intended 0x80 0x80 0xF0 = 0xF6 ∧ flagsALU .intended 0x01 0xFF 0xF0 = 0xFD := by decide

/-! ## One step each, from 95_test_vectors.md -/

/-- MW-6: across a page boundary. -/
theorem test_mwImm : (after (start 0x00FF [0x00, 0x55])).reg .a = 0x55 ∧ (after (start 0x00FF [0x00, 0x55])).pc = 0x0101 := by decide
/-- MW-3: contents under `index` too. -/
theorem test_mwReg : (after (start 0 [0x08, 0x01] { zeroRegs with b := 0x77 })).reg .a = 0x77 := by decide
/-- LW-4: PC's low byte after two operand fetches. -/
theorem test_lwAbs_pcl :
    (after (start 0x0010 [0x10, 0xFF, 0xFF])).reg .a = 0x12 ∧ (after (start 0x0010 [0x10, 0xFF, 0xFF])).pc = 0x0013 := by decide
/-- LW-3: the destination is half of the address. -/
theorem test_lwInd :
    (after (start 0 [0x1D] { zeroRegs with h := 0x12, l := 0x34 } [(0x1234, 0x99)])).hl = 0x9934 := by decide
/-- SW-3, SW-4: a store to a PC cell. -/
theorem test_swAbs_pc :
    (after (start 2 [0x20, 0xFF, 0xFF] { zeroRegs with a := 0x0F })).pc = 0x0010 ∧
    (after (start 2 [0x20, 0xFF, 0xFE] { zeroRegs with a := 0x40 })).pc = 0x4005 := by decide
/-- SW-2. -/
theorem test_swInd :
    (after (start 0 [0x29] { zeroRegs with h := 0x20, b := 0x33 })).memRead 0x2000 = 0x33 := by decide
/-- LDA-1. -/
theorem test_lda : (after (start 0 [0x50, 0x12, 0x34])).hl = 0x1234 ∧ (after (start 0 [0x50, 0x12, 0x34])).pc = 3 := by decide
/-- PU-5, PU-6: a push into the low cells of SP and PC. -/
theorem test_pushImm_pointer_cells :
    (after (start 0 [0x30, 0x10] zeroRegs (spAt 0xFFFD))).sp = 0xFF0F ∧
    (after (start 0 [0x30, 0x20] zeroRegs (spAt 0xFFFF))).pc = 0x0021 ∧
    (after (start 0 [0x30, 0x20] zeroRegs (spAt 0xFFFF))).sp = 0xFFFE := by decide
/-- PU-2, both settings. -/
theorem test_pushReg :
    (after (start 0 [0x39] { zeroRegs with b := 0x99 })).memRead 0xFEFF = 0x01 ∧
    (after (start 0 [0x39] { zeroRegs with b := 0x99 } [] contentsParams)).memRead 0xFEFF = 0x99 := by decide
/-- PO-1, PO-3. -/
theorem test_pop :
    (after (start 2 [0x40] zeroRegs ((0xFEFF, 0x42) :: spAt 0xFEFE))).reg .a = 0x42 ∧
    (after (start 0 [0x40] zeroRegs (spAt 0xFFFF))).reg .a = 0x40 := by decide
/-- J-1, J-2. -/
theorem test_jnzImm :
    (after (start 0x0010 [0x60, 0x01] { zeroRegs with l := 0x40 })).pc = 0x0040 ∧
    (after (start 0x0010 [0x60, 0x00] { zeroRegs with l := 0x40 })).pc = 0x0012 := by decide
/-- J-3, both settings. -/
theorem test_jnzReg :
    (after (start 0x0010 [0x68] { zeroRegs with l := 0x40, a := 0x55 })).pc = 0x0011 ∧
    (after (start 0x0010 [0x68] { zeroRegs with l := 0x40, a := 0x55 } [] contentsParams)).pc = 0x0040 := by decide
/-- IO-1 to IO-4: the whole state stays. -/
theorem test_io :
    step (start 0x0010 [0x73]) = .next (start 0x0010 [0x73]) ∧ step (start 0x0010 [0x80]) = .next (start 0x0010 [0x80]) := ⟨rfl, rfl⟩
/-- ADD-1, both variants. -/
theorem test_addImm :
    (after (start 0 [0x90, 0x01] { zeroRegs with a := 0xFF })).regs = zeroRegs ∧
    (after (start 0 [0x90, 0x01] { zeroRegs with a := 0xFF } [] intendedParams)).regs = { zeroRegs with f := 0x04 } := by decide
/-- ADD-4, both settings. -/
theorem test_addReg :
    (after (start 0 [0x99, 0x02] { zeroRegs with b := 0x10, c := 0x05 })).reg .b = 0x12 ∧
    (after (start 0 [0x99, 0x02] { zeroRegs with b := 0x10, c := 0x05 } [] contentsParams)).reg .b = 0x15 := by decide
/-- ADC-3, ADC-4: the carry-in, also when F is the destination. -/
theorem test_adcImm :
    (after (start 0 [0xA0, 0xFF] { zeroRegs with f := 0x04, a := 0xFF })).reg .a = 0xFF ∧
    (after (start 0 [0xA7, 0x00] { zeroRegs with f := 0x04 })).reg .f = 0x05 := by decide
/-- R89, R154: `ADC A, B` with the carry set adds index 1 or B's contents. -/
theorem test_adcReg :
    (after (start 0 [0xA8, 0x01] { zeroRegs with f := 0x04, a := 0x10, b := 0x40 })).reg .a = 0x12 ∧
    (after (start 0 [0xA8, 0x01] { zeroRegs with f := 0x04, a := 0x10, b := 0x40 } [] contentsParams)).reg .a = 0x51 := by decide
/-- AND-1. -/
theorem test_andImm : (after (start 0 [0xB0, 0x3C] { zeroRegs with a := 0xF0, f := 0xFF })).regs = { zeroRegs with a := 0x30, f := 0xFF } := by decide
/-- AND-2, both settings. -/
theorem test_andReg :
    (after (start 0 [0xB8, 0x01] { zeroRegs with a := 0xFF, b := 0xF0 })).reg .a = 0x01 ∧
    (after (start 0 [0xB8, 0x01] { zeroRegs with a := 0xFF, b := 0xF0 } [] contentsParams)).reg .a = 0xF0 := by decide
/-- OR-1, OR-2. -/
theorem test_orImm :
    (after (start 0 [0xC0, 0x0F] { zeroRegs with a := 0xF0 })).reg .a = 0xFF ∧ (after (start 0 [0xC7, 0x04])).reg .f = 0x04 := by decide
/-- R89, R156: `OR A, C`. -/
theorem test_orReg :
    (after (start 0 [0xC8, 0x02] { zeroRegs with a := 0x40, c := 0x80 })).reg .a = 0x42 ∧
    (after (start 0 [0xC8, 0x02] { zeroRegs with a := 0x40, c := 0x80 } [] contentsParams)).reg .a = 0xC0 := by decide
/-- NOR-1, NOR-4. -/
theorem test_norImm :
    (after (start 0 [0xD0, 0x00] { zeroRegs with a := 0x0F })).reg .a = 0xF0 ∧
    (after (start 0 [0xD0, 0x0F] { zeroRegs with a := 0xF0 })).reg .a = 0x00 := by decide
/-- R89, R157: `NOR A, D`. -/
theorem test_norReg :
    (after (start 0 [0xD8, 0x03] { zeroRegs with d := 0xF0 })).reg .a = 0xFC ∧
    (after (start 0 [0xD8, 0x03] { zeroRegs with d := 0xF0 } [] contentsParams)).reg .a = 0x0F := by decide
/-- CMP-1, both variants. -/
theorem test_cmpImm :
    (after (start 0 [0xE0, 0x0A] { zeroRegs with a := 5 })).regs = { zeroRegs with a := 5, f := 0x03 } ∧
    (after (start 0 [0xE0, 0x0A] { zeroRegs with a := 5 } [] intendedParams)).regs = { zeroRegs with a := 5, f := 0x09 } := by decide
/-- R89, R158: `CMP A, B` compares with index 1 or with B's contents. -/
theorem test_cmpReg :
    (after (start 0 [0xE8, 0x01] { zeroRegs with a := 5, b := 10 })).reg .f = 0x00 ∧
    (after (start 0 [0xE8, 0x01] { zeroRegs with a := 5, b := 10 } [] contentsParams)).reg .f = 0x03 := by decide
/-- SBB-2, SBB-5: the borrow is added. -/
theorem test_sbbImm :
    (after (start 0 [0xF0, 0x03] { zeroRegs with a := 0x0A, f := 0x08 })).regs = { zeroRegs with a := 0x08, f := 0x08 } ∧
    (after (start 0 [0xF0, 0xFF] { zeroRegs with f := 0x08 } [] intendedParams)).regs = { zeroRegs with a := 0x02, f := 0x09 } := by decide
/-- SBB-6, both settings. -/
theorem test_sbbReg :
    (after (start 0 [0xF8, 0x00] { zeroRegs with a := 0x33, f := 0x08 })).reg .a = 0x34 ∧
    (after (start 0 [0xF8, 0x00] { zeroRegs with a := 0x33, f := 0x08 } [] contentsParams)).reg .a = 0x01 := by decide

/-! ## Construction and load -/

/-- LD-2: a program over the PC cells sets PC. -/
theorem test_load_over_pc : (State.reset.load [0x01, 0x00] 0xFFFE).map State.pc = some 0x0100 := by decide
/-- LD-3: the StatusFlags after `load`. -/
theorem test_load_status :
    (State.load [0x70] 0x0000 { State.reset with status := ⟨true, true, false, true⟩ }).map State.status = some ⟨false, false, true, false⟩ := by decide
/-- LD-4, R214: no step while POWER is false. -/
theorem test_reset_takes_no_step : step State.reset = .fault .stopped := rfl
/-- LD-1: execution starts at PC, not at the offset. -/
theorem test_loadAndRun :
    (State.reset.loadAndRun [0x00, 0x0A] 0x0100 1).map State.pc = some 0x0002 ∧
    (State.reset.loadAndRun [0x00, 0x0A] 0x0000 1).map (fun s => s.reg .a) = some 0x0A := by decide
/-- R38. -/
theorem test_reset_pointers : State.reset.pc = 0x0000 ∧ State.reset.sp = 0xFEFF ∧ State.reset.memRead mbCell = 0 := by decide
/-- A word placed at PC is run by the very next step. -/
theorem test_withFetchWord : (after (State.reset.withFetchWord 16 0x0A00)).reg .a = 0x0A := by decide

/-! ## Witnesses: a concrete state and operands that meet every hypothesis of a statement together -/

/-- StepRunsTheInstructionAtPc. -/
theorem witness_step_runs : (start 0 [0x30, 0x42]).running = true ∧
    decode (start 0 [0x30, 0x42]).fetchedBytes = .ok (.pushImm 0x42, [0x00]) := ⟨by decide, rfl⟩

/-- StoppedCoreKeepsItsState: each of the three reasons. -/
theorem witness_stopped :
    State.reset.running = false ∧ ({ State.reset with status := ⟨false, true, true, false⟩ } : State).running = false ∧
    ({ State.reset with status := ⟨false, false, true, true⟩ } : State).running = false := by decide

/-- RunNeverEndsOnItsOwn, StepTakenIffRunning. -/
theorem witness_running : (start 0 [0x70]).running = true := by decide

/-- LoadedRunIsItsSteps: the first clause, on an instruction that moves PC. The lengths of its last clause are
`witness_load`'s. -/
theorem witness_running_step : (start 0 [0x00, 0x0A]).running = true ∧ ∃ t, step (start 0 [0x00, 0x0A]) = .next t :=
  ⟨by decide, ⟨_, rfl⟩⟩

/-- OnlyLoadWritesStatusFlags: both clauses. -/
theorem witness_status :
    (∃ t, exec (.mwImm .a 1) State.reset = .next t) ∧ (∃ t, State.reset.load [0x70] 0xFFFF = some t) :=
  ⟨⟨_, rfl⟩, ⟨_, rfl⟩⟩

/-- ParameterHazardIsConfined: an instruction of each clause. -/
theorem witness_parameter_hazard : usesVal (.addImm .a 1) = false ∧ usesFlags (.andReg .a .b) = false := by decide

/-- IgnoredBitsDoNotMatter: different bytes, the same meaningful bits, for a one-byte word, for an opcode byte with operand
bytes, and for a specifier byte. -/
theorem witness_ignored_bits :
    (0x4C : Byte) &&& ~~~ignoredOpcodeBits 0x4C = 0x44 &&& ~~~ignoredOpcodeBits 0x4C ∧
    (0x5F : Byte) &&& ~~~ignoredOpcodeBits 0x5F = 0x50 &&& ~~~ignoredOpcodeBits 0x5F ∧
    (0x9F : Byte) &&& ~~~ignoredOperandBits 0x08 = 0x07 &&& ~~~ignoredOperandBits 0x08 ∧
    (0x08 : Byte) &&& ~~~ignoredOpcodeBits 0x08 = 0x08 &&& ~~~ignoredOpcodeBits 0x08 := by decide

/-- FirstByteFixesTheLength: both clauses at the boundary of the three-byte form. -/
theorem witness_length :
    tableLength 0x50 ≤ ([0x12, 0x34] : List Byte).length + 1 ∧ ([0x12] : List Byte).length + 1 < tableLength 0x50 := by decide

/-- StepKeepsMemoryCanonical. -/
theorem witness_inv : (start 0xFFFD [0x30, 0x42]).Inv ∧ ∃ t, step (start 0xFFFD [0x30, 0x42]) = .next t :=
  ⟨by decide, ⟨_, rfl⟩⟩

/-- InbOutbHoldTheRunForEver: both disjuncts. -/
theorem witness_inb_outb :
    ((start 0 [0x70]).running = true ∧ (start 0 [0x70]).fetchedInstr = .inb) ∧
    ((start 0 [0x8F]).running = true ∧ (start 0 [0x8F]).fetchedInstr = .outb) := by decide

/-- JumpToSelfIsAFixedPoint: the immediate form, at J-5. -/
theorem witness_jump_to_self_imm :
    let s := start 0x0010 [0x60, 0x01] { zeroRegs with l := 0x10 }
    s.Inv ∧ s.running = true ∧ s.hl = s.pc ∧ s.fetchedInstr = .jnzImm 1 := by decide

/-- JumpToSelfIsAFixedPoint: the register form. -/
theorem witness_jump_to_self_reg :
    let s := start 0x0010 [0x69] { zeroRegs with l := 0x10 }
    s.Inv ∧ s.running = true ∧ s.hl = s.pc ∧ s.val .b ≠ 0 ∧ s.fetchedInstr = .jnzReg .b := by decide

/-- LoadWritesTheProgramAlone, LoadedRunIsItsSteps: both clauses, at 1, 65,536, 0 and 65,537 bytes. -/
theorem witness_load :
    (1 ≤ ([0x70] : List Byte).length ∧ ([0x70] : List Byte).length ≤ 65536) ∧
    (1 ≤ (List.replicate 65536 (0 : Byte)).length ∧ (List.replicate 65536 (0 : Byte)).length ≤ 65536) ∧
    ¬(1 ≤ ([] : List Byte).length ∧ ([] : List Byte).length ≤ 65536) ∧
    ¬(1 ≤ (List.replicate 65537 (0 : Byte)).length ∧ (List.replicate 65537 (0 : Byte)).length ≤ 65536) := by
  rw [List.length_replicate, List.length_replicate]
  exact ⟨by decide, by decide, by decide, by decide⟩

/-- LoadLeavesPcAndSpToTheProgram: a program that ends just below the PC cells, and one around the SP cells. -/
theorem witness_load_pointers :
    (∃ t, State.reset.load [1, 2] 0xFFFC = some t) ∧
    (∀ k, k < ([1, 2] : List Byte).length → (0xFFFC : Addr) + BitVec.ofNat 16 k ∉ pcCells) ∧
    (∃ t, State.reset.load [1, 2] 0xFFFE = some t) ∧
    (∀ k, k < ([1, 2] : List Byte).length → (0xFFFE : Addr) + BitVec.ofNat 16 k ∉ spCells) :=
  ⟨⟨_, rfl⟩, by decide, ⟨_, rfl⟩, by decide⟩

/-- PlacedWordRunsNext: at the highest PC it speaks of. -/
theorem witness_placed_word :
    (start 0xFFFB []).pc.toNat ≤ 0xFFFB ∧ (start 0xFFFB []).pc = 0xFFFB ∧ decodeTableWord 24 0x341250 = some (.lda 0x1234) := by decide

/-- StoreResult: both clauses, one cell below the PC pair. -/
theorem witness_store :
    (0xFFFD : Addr) ∉ pcCells ∧ (start 0 [] { zeroRegs with h := 0xFF, l := 0xFD }).hl ∉ pcCells := by decide

/-- StoreToPcCellMovesPc: the two clauses with a hypothesis. -/
theorem witness_store_pc :
    (start 0 [] { zeroRegs with h := 0xFF, l := 0xFE }).hl = pchCell ∧
    (start 0 [] { zeroRegs with h := 0xFF, l := 0xFF }).hl = pclCell := by decide

/-- StoreToSpCellMovesSp: the two clauses with a hypothesis. -/
theorem witness_store_sp :
    (start 0 [] { zeroRegs with h := 0xFF, l := 0xFC }).hl = sphCell ∧
    (start 0 [] { zeroRegs with h := 0xFF, l := 0xFD }).hl = splCell := by decide

/-- StoredByteIsFetchedNext: both clauses, at the last cell below the PC pair. -/
theorem witness_stored_byte_is_fetched :
    (start 0xFFFA []).pc + 3 ∉ pcCells ∧
    (let s := start 0xFFFC [] { zeroRegs with h := 0xFF, l := 0xFD }
     s.hl = s.pc + 1 ∧ s.hl ∉ pcCells) := by decide

/-- PushResult, PushThenPopRoundTrip: SP just below its own cells and at address 0. -/
theorem witness_push :
    (start 0 [] zeroRegs (spAt 0xFFFB)).sp ∉ spCells ++ pcCells ∧ (start 0 [] zeroRegs (spAt 0)).sp ∉ spCells ++ pcCells := by decide

/-- PushIntoPointerCells: SP at each of the four cells. The premise on the instruction is met by its own form. -/
theorem witness_push_pointer_cells :
    (start 0 [] zeroRegs (spAt 0xFFFC)).sp = sphCell ∧ (start 0 [] zeroRegs (spAt 0xFFFD)).sp = splCell ∧
    (start 0 [] zeroRegs (spAt 0xFFFE)).sp = pchCell ∧ (start 0 [] zeroRegs (spAt 0xFFFF)).sp = pclCell ∧
    (Instr.pushImm 7 = .pushImm 7 ∧ (2 : Nat) = 2) ∧
    (∃ r, Instr.pushReg .b = .pushReg r ∧ State.reset.val .b = State.reset.val r ∧ (1 : Nat) = 1) :=
  ⟨by decide, by decide, by decide, by decide, by decide, ⟨.b, rfl, rfl, rfl⟩⟩

/-- RegisterOperandIsIndexOrContents, JumpOnRegisterByParameter: both settings. -/
theorem witness_reg_operand :
    State.reset.params.regOperand = .index ∧ (start 0 [] zeroRegs [] contentsParams).params.regOperand = .contents := by decide

/-- AddResult, AddWithCarryResult, SubtractAddsTheBorrow, CompareWritesFlagsAlone, LogicResult,
PushThenPopRoundTrip: each disjunct of the premise on the instruction, and a destination that is not F. -/
theorem witness_operand_forms :
    (Instr.addImm .a 5 = .addImm .a 5 ∨ ∃ q, Instr.addImm .a 5 = .addReg .a q ∧ (5 : Byte) = State.reset.val q) ∧
    (∃ q, Instr.addReg .a .b = .addReg .a q ∧ State.reset.val .b = State.reset.val q) ∧
    (∃ q, Instr.adcReg .a .b = .adcReg .a q ∧ State.reset.val .b = State.reset.val q) ∧
    (∃ q, Instr.sbbReg .a .b = .sbbReg .a q ∧ State.reset.val .b = State.reset.val q) ∧
    (∃ q, Instr.cmpReg .f .b = .cmpReg .f q ∧ State.reset.val .b = State.reset.val q) ∧
    (∃ q, Instr.andReg .a .b = .andReg .a q ∧ State.reset.val .b = State.reset.val q) ∧
    (∃ q, Instr.orReg .a .b = .orReg .a q ∧ State.reset.val .b = State.reset.val q) ∧
    (∃ q, Instr.norReg .a .b = .norReg .a q ∧ State.reset.val .b = State.reset.val q) ∧
    (∃ q, Instr.pushReg .b = .pushReg q ∧ State.reset.val .b = State.reset.val q) ∧ Reg.a ≠ .f :=
  ⟨.inl rfl, ⟨.b, rfl, rfl⟩, ⟨.b, rfl, rfl⟩, ⟨.b, rfl, rfl⟩, ⟨.b, rfl, rfl⟩, ⟨.b, rfl, rfl⟩, ⟨.b, rfl, rfl⟩, ⟨.b, rfl, rfl⟩,
    ⟨.b, rfl, rfl⟩, by decide⟩

end Sys2Proof.Tests
end

/-! PROOFS. The statements of 10_state.md: StatusFlags, the frame of every instruction, the PC and SP pairs, H:L,
and the state at construction. -/

namespace Sys2Proof.Machine

/-! ## The frame of every instruction -/

/-- A register write before the final IncPC changes that register and the PC cells. -/
theorem State.onlyChanges_incPC_setReg (s : State) (r : Reg) (v : Byte) :
    OnlyChanges s (s.setReg r v).incPC [r] pcCells :=
  (s.onlyChanges_setReg r v).trans (onlyChanges_incPC _)

/-- Every instruction's effect stays within the registers of 10_state.md R22 and the cells of 20_memory.md R53. -/
theorem onlyChanges_effect (s : State) (i : Instr) :
    OnlyChanges s (effect s i) (writtenRegs i) (writtenCells s i) := by
  have pcOnly : ∀ a ∈ pcCells, a ∈ pcCells := fun _ ha => ha
  cases i with
  | mwImm r _ | mwReg r _ => exact (State.onlyChanges_incPC_setReg _ r _).of_afterFetch pcOnly
  | lwAbs r addr => exact (State.onlyChanges_load1 r addr _).of_afterFetch pcOnly
  | lwInd r => exact State.onlyChanges_load1 r s.hl s
  | swAbs addr r => exact (State.onlyChanges_store1 addr r _).of_afterFetch (fun _ => List.mem_cons_of_mem _)
  | swInd r => exact State.onlyChanges_store1 s.hl r s
  | pushImm imm =>
    have push := State.onlyChanges_push1 imm (s.afterFetch 1)
    rw [State.sp_afterFetch] at push
    exact push.of_afterFetch (fun _ ha => List.mem_cons_of_mem _ (List.mem_append_right _ ha))
  | pushReg r => exact State.onlyChanges_push1 (s.val r) s
  | pop r => exact s.onlyChanges_incSP.trans (State.onlyChanges_incPC_setReg _ r _)
  | lda addr =>
    exact ((State.onlyChanges_setReg _ .h _).trans (State.onlyChanges_incPC_setReg _ .l _)).of_afterFetch pcOnly
  | jnzImm imm => exact (State.onlyChanges_jumpIfNotZero imm _).of_afterFetch pcOnly
  | jnzReg r => exact State.onlyChanges_jumpIfNotZero (s.val r) s
  | inb | outb => exact OnlyChanges.refl s _ _
  | addImm r _ | addReg r _ => exact State.onlyChanges_add1 r _ s
  | adcImm r _ | adcReg r _ => exact State.onlyChanges_adc1 r _ s
  | sbbImm r _ | sbbReg r _ => exact State.onlyChanges_sbb1 r _ s
  | cmpImm r _ | cmpReg r _ => exact State.onlyChanges_cmp1 r _ s
  | andImm r _ | andReg r _ | orImm r _ | orReg r _ => exact State.onlyChanges_logic1 _ r _ s
  | norImm r _ | norReg r _ => exact State.onlyChanges_logic1 (fun a b => ~~~(a ||| b)) r _ s

/-- Settles O17: the next state is the instruction's effect, and each effect keeps to its frame. -/
theorem everyInstructionCompletesInItsFrame : Obligations.EveryInstructionCompletesInItsFrame :=
  fun i s => ⟨effect s i, exec_eq_effect i s, onlyChanges_effect s i⟩

/-! ## The StatusFlags -/

/-- A load that succeeds places the bytes and sets POWER, and that is all (70_reset_and_hazards.md R211). -/
theorem State.eq_powerOn_of_load {program : List Byte} {offset : Addr} {s t : State}
    (h : s.load program offset = some t) : t = (State.placeBytes program offset s).powerOn := by
  by_cases hlen : 1 ≤ program.length ∧ program.length ≤ 65536
  · rw [load_of_length hlen] at h
    exact (Option.some.inj h).symm
  · rw [load_of_not_length hlen] at h
    cases h

/-- Settles O14: the StatusFlags are outside every instruction's frame, and `load` ends with `powerOn`. -/
theorem onlyLoadWritesStatusFlags : Obligations.OnlyLoadWritesStatusFlags := by
  refine ⟨fun i s t h => ?_, fun program offset s t h => ?_⟩
  · rw [effect_of_exec h]
    exact (onlyChanges_effect s i).status
  · rw [State.eq_powerOn_of_load h]
    exact State.powerOn_status _

/-- An effect does not look at the StatusFlags (10_state.md R28): each shared operation commutes with a change of
them, and every operand reads the same. -/
theorem effect_withStatus (f : StatusFlags) (s : State) (i : Instr) :
    effect (s.withStatus f) i = (effect s i).withStatus f := by
  cases i with
  | mwImm | mwReg | lda =>
    simp only [effect, State.afterFetch_withStatus, State.reg_withStatus, State.setReg_withStatus,
      State.incPC_withStatus]
  | lwAbs => rw [effect, State.afterFetch_withStatus, State.load1_withStatus, effect]
  | lwInd => rw [effect, State.hl_withStatus, State.load1_withStatus, effect]
  | swAbs => rw [effect, State.afterFetch_withStatus, State.store1_withStatus, effect]
  | swInd => rw [effect, State.hl_withStatus, State.store1_withStatus, effect]
  | pushImm => rw [effect, State.afterFetch_withStatus, State.push1_withStatus, effect]
  | pushReg => rw [effect, State.val_withStatus, State.push1_withStatus, effect]
  | pop =>
    rw [effect, State.incSP_withStatus, State.sp_withStatus, State.memRead_withStatus, State.setReg_withStatus,
      State.incPC_withStatus, effect]
  | jnzImm => rw [effect, State.afterFetch_withStatus, State.jumpIfNotZero_withStatus, effect]
  | jnzReg => rw [effect, State.val_withStatus, State.jumpIfNotZero_withStatus, effect]
  | inb | outb => rfl
  | addImm r _ | addReg r _ => exact State.add1_withStatus f s r _
  | adcImm r _ | adcReg r _ => exact State.adc1_withStatus f s r _
  | sbbImm r _ | sbbReg r _ => exact State.sbb1_withStatus f s r _
  | cmpImm r _ | cmpReg r _ => exact State.cmp1_withStatus f s r _
  | andImm r _ | andReg r _ | orImm r _ | orReg r _ => exact State.logic1_withStatus f s _ r _
  | norImm r _ | norReg r _ => exact State.logic1_withStatus f s (fun a b => ~~~(a ||| b)) r _

/-- Settles O15: both runs go to their effects, and the effect commutes with the change of StatusFlags. -/
theorem noInstructionReadsStatusFlags : Obligations.NoInstructionReadsStatusFlags := by
  intro i s f
  rw [exec_eq_effect, exec_eq_effect, mapNext, effect_withStatus]

/-- A step is taken exactly by a running core (10_state.md R29). -/
theorem exists_step_next_iff_running (s : State) : (∃ t, step s = .next t) ↔ s.running = true :=
  ⟨fun ⟨_, h⟩ => (step_cases h).1, fun h => ⟨_, step_of_running h⟩⟩

/-- Settles O10: a step is taken exactly when the core is running, which is the condition on the three flags. -/
theorem stepTakenIffRunning : Obligations.StepTakenIffRunning :=
  fun s => ⟨(exists_step_next_iff_running s).trans s.running_iff, s.running_iff⟩

/-! ## The PC and SP pairs as 16-bit values -/

theorem loByte_add_one (v : Addr) : loByte (v + 1) = loByte v + 1 := by
  rw [← pair_hiByte_loByte v, pair_add_one, loByte_pair, loByte_pair]

/-- The carry reaches the high byte exactly when the low byte wraps to zero (10_state.md R36). -/
theorem hiByte_add_one (v : Addr) :
    hiByte (v + 1) = if loByte v + 1 = 0 then hiByte v + 1 else hiByte v := by
  rw [← pair_hiByte_loByte v, pair_add_one, hiByte_pair, hiByte_pair, loByte_pair]

/-- `Dec16` adds 255 to a byte, which subtracts one mod 256 (R12). -/
theorem add_255_eq_sub_one (b : Byte) : b + 255 = b - 1 := by rw [BitVec.sub_eq_add_neg]; rfl

theorem loByte_sub_one (v : Addr) : loByte (v - 1) = loByte v - 1 := by
  rw [← pair_hiByte_loByte v, pair_sub_one, loByte_pair, loByte_pair, add_255_eq_sub_one]

/-- The borrow reaches the high byte exactly when the low byte was zero (10_state.md R37). -/
theorem hiByte_sub_one (v : Addr) : hiByte (v - 1) = if loByte v = 0 then hiByte v - 1 else hiByte v := by
  rw [← pair_hiByte_loByte v, pair_sub_one, hiByte_pair, hiByte_pair, loByte_pair, add_255_eq_sub_one]

theorem toNat_sub_one (v : Addr) : (v - 1).toNat = (v.toNat + 65535) % 65536 := by
  rw [BitVec.toNat_sub, toNat_one_addr, Nat.add_comm]

/-- Settles O27: each increment is `+ 1` on its pair's 16-bit value. -/
theorem pairIncrementWraps : Obligations.PairIncrementWraps := by
  intro s
  rw [State.pc_incPC, State.sp_incSP]
  exact ⟨⟨loByte_add_one _, hiByte_add_one _, BitVec.toNat_add _ 1, s.onlyChanges_incPC⟩,
    ⟨loByte_add_one _, hiByte_add_one _, BitVec.toNat_add _ 1, s.onlyChanges_incSP⟩⟩

/-- Settles O28: the decrement is `- 1` on SP's 16-bit value. -/
theorem stackPointerDecrementBorrows : Obligations.StackPointerDecrementBorrows := by
  intro s
  rw [State.sp_decSP]
  exact ⟨loByte_sub_one _, hiByte_sub_one _, toNat_sub_one _, s.onlyChanges_decSP⟩

/-- SP after a store: a store to one of its cells replaces that half, and the final IncPC leaves it
(10_state.md R35). -/
theorem State.sp_store1 (a : Addr) (r : Reg) (s : State) :
    (s.store1 a r).sp =
      pair (if a = sphCell then s.reg r else hiByte s.sp) (if a = splCell then s.reg r else loByte s.sp) := by
  rw [store1, sp_incPC, sp_memWrite]

theorem State.sp_store1_sphCell (r : Reg) (s : State) :
    (s.store1 sphCell r).sp = pair (s.reg r) (loByte s.sp) := by
  rw [sp_store1, if_pos rfl, if_neg (by decide)]

theorem State.sp_store1_splCell (r : Reg) (s : State) :
    (s.store1 splCell r).sp = pair (hiByte s.sp) (s.reg r) := by
  rw [sp_store1, if_neg (by decide), if_pos rfl]

/-- Settles O35: both forms are the store effect, and the operand fetches move neither SP nor a register. -/
theorem storeToSpCellMovesSp : Obligations.StoreToSpCellMovesSp := by
  intro r s
  refine ⟨⟨_, exec_eq_effect _ s, ?_⟩, ⟨_, exec_eq_effect _ s, ?_⟩,
    fun hhl => ⟨_, exec_eq_effect _ s, ?_⟩, fun hhl => ⟨_, exec_eq_effect _ s, ?_⟩⟩
  · rw [effect, State.sp_store1_sphCell, State.reg_afterFetch, State.sp_afterFetch]
  · rw [effect, State.sp_store1_splCell, State.reg_afterFetch, State.sp_afterFetch]
  · rw [effect, hhl, State.sp_store1_sphCell]
  · rw [effect, hhl, State.sp_store1_splCell]

/-! ## The H:L pointer -/

/-- H:L after a register write: the half written, if it is one, and the other as it was (10_state.md R23). -/
theorem State.hl_setReg (s : State) (r : Reg) (v : Byte) :
    (s.setReg r v).hl = pair (if r = .h then v else s.reg .h) (if r = .l then v else s.reg .l) := by
  simp only [hl, reg_setReg, eq_comm]

/-- Settles O29: one case per register, H and L the two halves and the other six no part of the pointer. -/
theorem hlPointerFollowsItsHalves : Obligations.HlPointerFollowsItsHalves := by
  intro s r v
  refine ⟨toNat_pair _ _, ?_⟩
  rw [State.hl_setReg]
  cases r <;> rfl

/-! ## Construction -/

/-- Every cell but the SP pair is 0 at construction (10_state.md R38). -/
theorem State.memRead_construct_eq_zero (regReset : Reg → Byte) (p : Params) {a : Addr}
    (hsph : a ≠ sphCell) (hspl : a ≠ splCell) : (State.construct regReset p).memRead a = 0 := by
  have hh : a.toNat ≠ 0xFFFC := fun e => hsph (BitVec.eq_of_toNat_eq e)
  have hl : a.toNat ≠ 0xFFFD := fun e => hspl (BitVec.eq_of_toNat_eq e)
  rw [memRead_construct, Memory.initial, if_neg hh, if_neg hl]

/-- PC is two of those cells. -/
theorem State.pc_construct (regReset : Reg → Byte) (p : Params) : (State.construct regReset p).pc = 0 := by
  rw [pc, memRead_construct_eq_zero _ _ (by decide) (by decide),
    memRead_construct_eq_zero _ _ (by decide) (by decide)]
  rfl

theorem State.sp_construct (regReset : Reg → Byte) (p : Params) : (State.construct regReset p).sp = 0xFEFF := by
  rw [sp, memRead_construct, memRead_construct]
  rfl

/-- Settles O22: memory lists no cell, so each reads as its construction value. -/
theorem constructionValues : Obligations.ConstructionValues := by
  refine ⟨fun regReset p => ?_, rfl⟩
  exact ⟨State.pc_construct _ _, State.sp_construct _ _,
    State.memRead_construct_eq_zero _ _ (by decide) (by decide),
    fun _ hsph hspl => State.memRead_construct_eq_zero _ _ hsph hspl, State.reg_construct _ _, rfl, rfl, rfl⟩

/-- Settles O19: the empty list of cells is canonical. -/
theorem constructionMemoryIsCanonical : Obligations.ConstructionMemoryIsCanonical :=
  ⟨fun _ _ => Memory.wf_nil, Memory.wf_nil⟩

end Sys2Proof.Machine

/-! PROOFS. The statements of 20_memory.md: the canonical form through every step, the fetched bytes, the PC and SP
cells, and a byte stored into the instruction stream. -/

namespace Sys2Proof.Machine

/-! ## The canonical form through every step -/

/-- Every instruction's effect keeps memory canonical: a register write does not touch it, and every other part of
an effect writes it by `Memory.write`. -/
theorem wf_effect {s : State} (h : s.mem.wf) (i : Instr) : (effect s i).mem.wf := by
  cases i with
  | mwImm r _ | mwReg r _ => exact State.wf_incPC (State.wf_setReg (State.wf_afterFetch 1 h) r _)
  | lwAbs r addr => exact State.wf_load1 (State.wf_afterFetch 2 h) r addr
  | lwInd r => exact State.wf_load1 h r s.hl
  | swAbs addr r => exact State.wf_store1 (State.wf_afterFetch 2 h) addr r
  | swInd r => exact State.wf_store1 h s.hl r
  | pushImm imm => exact State.wf_push1 (State.wf_afterFetch 1 h) imm
  | pushReg r => exact State.wf_push1 h (s.val r)
  | pop r => exact State.wf_incPC (State.wf_setReg (State.wf_incSP h) r _)
  | lda addr =>
    exact State.wf_incPC (State.wf_setReg (State.wf_setReg (State.wf_afterFetch 2 h) .h _) .l _)
  | jnzImm imm => exact State.wf_jumpIfNotZero (State.wf_afterFetch 1 h) imm
  | jnzReg r => exact State.wf_jumpIfNotZero h (s.val r)
  | inb | outb => exact h
  | addImm r _ | addReg r _ => exact State.wf_add1 h r _
  | adcImm r _ | adcReg r _ => exact State.wf_adc1 h r _
  | sbbImm r _ | sbbReg r _ => exact State.wf_sbb1 h r _
  | cmpImm r _ | cmpReg r _ => exact State.wf_cmp1 h r _
  | andImm r _ | andReg r _ | orImm r _ | orReg r _ | norImm r _ | norReg r _ =>
    exact State.wf_logic1 h _ r _

/-- Settles O18: a step that is taken is the effect of one instruction. -/
theorem stepKeepsMemoryCanonical : Obligations.StepKeepsMemoryCanonical := by
  intro s t hs hstep
  obtain ⟨-, rfl⟩ := step_cases hstep
  exact wf_effect hs _

/-! ## The fetched bytes -/

/-- The `n`-th fetch reads the cell PC has moved to; the PC cells hold the halves of that address
(30_encoding.md R88). -/
theorem State.fetchedByte_eq (s : State) (n : Nat) :
    s.fetchedByte n =
      if s.pc + BitVec.ofNat 16 n = pchCell then hiByte (s.pc + BitVec.ofNat 16 n)
      else if s.pc + BitVec.ofNat 16 n = pclCell then loByte (s.pc + BitVec.ofNat 16 n)
      else s.memRead (s.pc + BitVec.ofNat 16 n) := by
  rw [fetchedByte, pc_afterFetch, memRead_afterFetch]

/-- Settles O9: the high half of PCH's address and the low half of PCL's are both 0xFF. -/
theorem fetchReadsConsecutiveBytes : Obligations.FetchReadsConsecutiveBytes := by
  intro s n
  rw [State.fetchedByte_eq]
  by_cases hpch : s.pc + BitVec.ofNat 16 n = pchCell
  · rw [if_pos hpch, if_pos (.inl hpch), hpch]; rfl
  · rw [if_neg hpch]
    by_cases hpcl : s.pc + BitVec.ofNat 16 n = pclCell
    · rw [if_pos hpcl, if_pos (.inr hpcl), hpcl]; rfl
    · rw [if_neg hpcl, if_neg (not_or.mpr ⟨hpch, hpcl⟩)]

/-! ## PC and SP as their cells -/

/-- A 16-bit value with either half replaced, the halves chosen by an address that names at most one of them. -/
theorem pair_ite_halves (w : Addr) (v : Byte) {a h l : Addr} (hne : h ≠ l) :
    pair (if a = h then v else hiByte w) (if a = l then v else loByte w) =
      if a = h then pair v (loByte w) else if a = l then pair (hiByte w) v else w := by
  by_cases hh : a = h
  · rw [if_pos hh, if_pos hh, if_neg (hh.trans_ne hne)]
  · rw [if_neg hh, if_neg hh]
    by_cases hl : a = l
    · rw [if_pos hl, if_pos hl]
    · rw [if_neg hl, if_neg hl, pair_hiByte_loByte]

/-- Settles O26: each pair is read from its cells, and a write changes at most one half of it. -/
theorem pairsAreTheirCells : Obligations.PairsAreTheirCells := by
  intro s a v
  refine ⟨⟨s.hiByte_pc.symm, s.loByte_pc.symm, s.hiByte_sp.symm, s.loByte_sp.symm⟩, ?_, ?_⟩
  · rw [State.pc_memWrite]
    exact pair_ite_halves s.pc v (by decide)
  · rw [State.sp_memWrite]
    exact pair_ite_halves s.sp v (by decide)

/-! ## A byte stored into the instruction stream -/

/-- A store outside the PC cells leaves PC to the final increment (40_data_movement.md R112). -/
theorem State.pc_store1_of_not_mem {a : Addr} (ha : a ∉ pcCells) (r : Reg) (s : State) :
    (s.store1 a r).pc = s.pc + 1 := by
  obtain ⟨hh, hl⟩ := not_mem_pcCells ha
  rw [pc_store1, if_neg hh, if_neg hl, pair_hiByte_loByte]

/-- A store outside the PC cells puts the register's byte in its cell (40_data_movement.md R112). -/
theorem State.memRead_store1_self {a : Addr} (ha : a ∉ pcCells) (r : Reg) (s : State) :
    (s.store1 a r).memRead a = s.reg r := by
  obtain ⟨hh, hl⟩ := not_mem_pcCells ha
  rw [memRead_store1 a r s a hh hl, if_pos rfl]

/-- A store to the address that the final increment moves PC to: the next opcode byte is the byte stored
(20_memory.md R68). -/
theorem State.fetchedByte_zero_store1 {a : Addr} (ha : a ∉ pcCells) (r : Reg) {s : State} (hpc : a = s.pc + 1) :
    (s.store1 a r).fetchedByte 0 = s.reg r := by
  have hnext : (s.store1 a r).pc = a := (pc_store1_of_not_mem ha r s).trans hpc.symm
  calc (s.store1 a r).fetchedByte 0 = (s.store1 a r).memRead a := congrArg (s.store1 a r).memRead hnext
    _ = s.reg r := memRead_store1_self ha r s

/-- Settles O36: both forms are the store effect, the absolute one after its two operand fetches. -/
theorem storedByteIsFetchedNext : Obligations.StoredByteIsFetchedNext := by
  intro r s
  refine ⟨fun ha => ⟨_, exec_eq_effect _ s, ?_⟩, fun hnext ha => ⟨_, exec_eq_effect _ s, ?_⟩⟩
  · have hpc : s.pc + 3 = (s.afterFetch 2).pc + 1 := by rw [State.pc_afterFetch, BitVec.add_assoc]; rfl
    rw [effect, State.fetchedByte_zero_store1 ha r hpc, State.reg_afterFetch]
  · rw [effect, State.fetchedByte_zero_store1 ha r hnext]

end Sys2Proof.Machine

/-! PROOFS. The statements of 30_encoding.md: the round trip of decode and encode both ways, the first byte's opcode
and length, the ignored bits, the fixed words, the step's decoding and the register operand. -/

namespace Sys2Proof

/-! ## From an instruction to its bytes and back -/

theorem exists_encode_eq_cons (i : Instr) : ∃ b0 operands, encode i = b0 :: operands := by
  cases i <;> exact ⟨_, _, rfl⟩

theorem length_encode (i : Instr) : (encode i).length = i.length := by cases i <;> rfl

/-- The bytes of an instruction decode to it: in each arm the opcode byte gives the opcode, R and the register field,
and the operand bytes give the literal or the register of the specifier (30_encoding.md R80, R82). -/
theorem decodeBytes_of_encode {i : Instr} {b0 : Byte} {operands : List Byte} (h : encode i = b0 :: operands)
    (rest : List Byte) :
    decodeBytes b0 ((operands ++ rest).getD 0 0) ((operands ++ rest).getD 1 0) = i := by
  cases i <;> obtain ⟨rfl, rfl⟩ := List.cons.inj h <;> simp [decodeBytes]

/-- The opcode byte of an encoding asks for as many bytes as the encoding has after it (30_encoding.md R87). -/
theorem operandBytes_of_encode {i : Instr} {b0 : Byte} {operands : List Byte} (h : encode i = b0 :: operands) :
    operandBytes b0 = operands.length := by
  have hlen : operandBytes b0 + 1 = i.length := by
    rw [← length_decodeBytes b0, decodeBytes_of_encode h []]
  rw [← length_encode, h, List.length_cons] at hlen
  exact Nat.succ.inj hlen

theorem decode_encode_append (i : Instr) (rest : List Byte) : decode (encode i ++ rest) = .ok (i, rest) := by
  obtain ⟨b0, operands, henc⟩ := exists_encode_eq_cons i
  have hcount := operandBytes_of_encode henc
  have henough : operandBytes b0 ≤ (operands ++ rest).length := by
    rw [hcount, List.length_append]; exact Nat.le_add_right _ _
  rw [henc, List.cons_append, decode_cons _ _ henough, decodeBytes_of_encode henc, hcount, List.drop_left]

theorem Instr.wellFormed_eq_true (i : Instr) : i.wellFormed = true := by cases i <;> rfl

/-- Settles O3: the decoder reads every field back, and takes exactly the bytes of the encoding. -/
theorem decodeOfEncodeIsTheInstruction : Obligations.DecodeOfEncodeIsTheInstruction :=
  fun i rest => ⟨i.wellFormed_eq_true, decode_encode_append i rest⟩

/-! ## Clearing bits of a byte -/

/-- Clearing bits outside a mask leaves what the mask selects. -/
theorem and_compl_and_of_disjoint (b : Byte) {m k : Byte} (h : m &&& k = 0) : b &&& ~~~m &&& k = b &&& k := by
  ext i hi
  have hbit : (m[i] && k[i]) = false := by simpa using congrArg (fun x : Byte => x[i]) h
  cases hk : k[i] <;> simp_all

theorem label_and_0xF0 (b : Byte) : label (b &&& 0xF0) = label b := by revert b; decide

/-- Bits 3..0 are no part of the label (30_encoding.md R81). -/
theorem label_and_compl (b : Byte) {m : Byte} (h : m &&& 0xF0 = 0) : label (b &&& ~~~m) = label b := by
  rw [← label_and_0xF0, and_compl_and_of_disjoint b h, label_and_0xF0]

/-- R is bit 3 alone (30_encoding.md R81). -/
theorem isRegisterOperand_and_compl (b : Byte) {m : Byte} (h : m &&& 0x08 = 0) :
    isRegisterOperand (b &&& ~~~m) = isRegisterOperand b :=
  congrArg (· != 0) (and_compl_and_of_disjoint b h)

theorem and_0xFF (b : Byte) : b &&& 0xFF#8 = b := BitVec.and_allOnes

theorem opcodeByte_and_0xF8 (op : Op) (R : Bool) (r : Reg) : opcodeByte op R r &&& 0xF8#8 = opcodeByte op R .a := by
  cases op <;> cases R <;> cases r <;> rfl

theorem opcodeByte_and_0xF7 (op : Op) (R : Bool) (r : Reg) :
    opcodeByte op R r &&& 0xF7#8 = opcodeByte op false r := by
  cases op <;> cases R <;> cases r <;> rfl

theorem opcodeByte_and_0xF0 (op : Op) (R : Bool) (r : Reg) :
    opcodeByte op R r &&& 0xF0#8 = opcodeByte op false .a := by
  cases op <;> cases R <;> cases r <;> rfl

theorem specifierByte_registerField (b : Byte) : specifierByte (registerField b) = b &&& 0x07#8 := by
  revert b; decide

theorem exists_eq_opcodeByte (b : Byte) : ∃ op R r, b = opcodeByte op R r :=
  ⟨_, _, _, (opcodeByte_fields b).symm⟩

/-! ## From bytes to an instruction and back -/

/-- What decodes from three bytes encodes to them with the ignored bits zero (30_encoding.md R86). By the opcode: which
fields of the opcode byte its forms use, and whether a specifier byte follows. -/
theorem encode_decodeBytes_append (b0 b1 b2 : Byte) (rest : List Byte) :
    encode (decodeBytes b0 b1 b2) ++ (b1 :: b2 :: rest).drop (operandBytes b0) =
      (b0 &&& ~~~ignoredOpcodeBits b0) :: (b1 &&& ~~~ignoredOperandBits b0) :: b2 :: rest := by
  obtain ⟨op, R, r, rfl⟩ := exists_eq_opcodeByte b0
  simp only [decodeBytes, operandBytes, ignoredOpcodeBits, ignoredOperandBits, label_opcodeByte, opOfLabel_labelOfOp,
    isRegisterOperand_opcodeByte, registerField_opcodeByte]
  cases op with
  | mw | add | adc | and | or | nor | cmp | sbb =>
    cases R <;> simp [encode, formatOf, operandCount, and_0xFF, specifierByte_registerField]
  | lw | sw => cases R <;> simp [encode, formatOf, operandCount, and_0xFF]
  | push | jnz => cases R <;> simp [encode, formatOf, operandCount, and_0xFF, opcodeByte_and_0xF8]
  | pop => simp [encode, formatOf, operandCount, and_0xFF, opcodeByte_and_0xF7]
  | lda | inb | outb => simp [encode, formatOf, operandCount, and_0xFF, opcodeByte_and_0xF0]

/-- Three bytes are enough for any format. -/
theorem decode_three_bytes (b0 b1 b2 : Byte) (rest : List Byte) :
    decode (b0 :: b1 :: b2 :: rest) =
      .ok (decodeBytes b0 b1 b2, (b1 :: b2 :: rest).drop (operandBytes b0)) := by
  have henough : operandBytes b0 ≤ (b1 :: b2 :: rest).length :=
    (operandBytes_le_two b0).trans (Nat.le_add_left 2 rest.length)
  exact decode_cons b0 (b1 :: b2 :: rest) henough

/-- Settles O7: three bytes always decode, and the encoder writes zero in the ignored bits alone. -/
theorem decodeDropsOnlyIgnoredBits : Obligations.DecodeDropsOnlyIgnoredBits :=
  fun b0 b1 b2 rest => ⟨_, _, decode_three_bytes b0 b1 b2 rest, encode_decodeBytes_append b0 b1 b2 rest⟩

/-! ## The ignored bits -/

theorem ignoredOpcodeBits_and_0xF0 (b : Byte) : ignoredOpcodeBits b &&& 0xF0 = 0 := by
  unfold ignoredOpcodeBits
  cases opOfLabel (label b) <;> cases isRegisterOperand b <;> rfl

/-- What is ignored follows from the label and R, and where R is ignored from the label alone. -/
theorem ignoredBits_eq {b c : Byte} (hlabel : label c = label b)
    (hR : ignoredOpcodeBits b &&& 0x08 = 0 → isRegisterOperand c = isRegisterOperand b) :
    ignoredOpcodeBits c = ignoredOpcodeBits b ∧ ignoredOperandBits c = ignoredOperandBits b := by
  cases hop : opOfLabel (label b) with
  | pop | lda | inb | outb =>
    simp only [ignoredOpcodeBits, ignoredOperandBits, hlabel, hop, formatOf, and_self]
  | _ =>
    have hread : ignoredOpcodeBits b &&& 0x08 = 0 := by
      simp only [ignoredOpcodeBits, hop]
      cases isRegisterOperand b <;> rfl
    simp only [ignoredOpcodeBits, ignoredOperandBits, hlabel, hR hread, and_self]

/-- Bytes that agree outside the ignored bits of the first ignore the same bits: no ignored bit is a bit of the label,
and where R is not ignored it is the same in both. -/
theorem ignoredBits_eq_of_agree {b c : Byte} (h : b &&& ~~~ignoredOpcodeBits b = c &&& ~~~ignoredOpcodeBits b) :
    ignoredOpcodeBits c = ignoredOpcodeBits b ∧ ignoredOperandBits c = ignoredOperandBits b := by
  have hmask := ignoredOpcodeBits_and_0xF0 b
  refine ignoredBits_eq ?_ fun hbit => ?_
  · rw [← label_and_compl c hmask, ← h, label_and_compl b hmask]
  · rw [← isRegisterOperand_and_compl c hbit, ← h, isRegisterOperand_and_compl b hbit]

/-- The decoder does not see the ignored bits: the bytes with those bits zero are an encoding of the same
instruction. -/
theorem decodeBytes_clear_ignored (b0 b1 b2 : Byte) :
    decodeBytes (b0 &&& ~~~ignoredOpcodeBits b0) (b1 &&& ~~~ignoredOperandBits b0) b2 = decodeBytes b0 b1 b2 := by
  have h := decode_encode_append (decodeBytes b0 b1 b2) ([b1, b2].drop (operandBytes b0))
  rw [encode_decodeBytes_append, decode_three_bytes] at h
  exact congrArg Prod.fst (Except.ok.inj h)

theorem decodeBytes_eq_of_agree {b0 c0 b1 c1 : Byte}
    (h0 : b0 &&& ~~~ignoredOpcodeBits b0 = c0 &&& ~~~ignoredOpcodeBits b0)
    (h1 : b1 &&& ~~~ignoredOperandBits b0 = c1 &&& ~~~ignoredOperandBits b0) (b2 : Byte) :
    decodeBytes b0 b1 b2 = decodeBytes c0 c1 b2 := by
  obtain ⟨hop, hoperand⟩ := ignoredBits_eq_of_agree h0
  rw [← decodeBytes_clear_ignored b0, h0, h1, ← hop, ← hoperand, decodeBytes_clear_ignored]

theorem ignoredOperandBits_of_operandBytes_eq_zero {b0 : Byte} (h : operandBytes b0 = 0) :
    ignoredOperandBits b0 = 0 := by
  unfold operandBytes at h
  unfold ignoredOperandBits
  cases hf : formatOf (opOfLabel (label b0)) (isRegisterOperand b0) <;> simp_all [operandCount]

/-- Two lists of one length decode alike when their first bytes stand for one instruction and the bytes after it are
the same. -/
theorem decode_cons_congr {b0 c0 : Byte} {bs cs : List Byte} (hlen : bs.length = cs.length)
    (hinstr : decodeBytes b0 (bs.getD 0 0) (bs.getD 1 0) = decodeBytes c0 (cs.getD 0 0) (cs.getD 1 0))
    (hdrop : bs.drop (operandBytes b0) = cs.drop (operandBytes b0)) :
    decode (b0 :: bs) = decode (c0 :: cs) := by
  have hcount : operandBytes b0 = operandBytes c0 :=
    Nat.add_right_cancel (by rw [← length_decodeBytes, hinstr, length_decodeBytes])
  rw [decode, decode, hlen, hinstr, hdrop, hcount]

/-- Settles O6: the two first bytes ignore the same bits and stand for the same instruction. A byte after an opcode byte
that takes none is the first byte left over, and no bit of it is ignored. -/
theorem ignoredBitsDoNotMatter : Obligations.IgnoredBitsDoNotMatter := by
  intro b0 c0 h0
  refine ⟨decode_cons_congr rfl (decodeBytes_eq_of_agree h0 rfl 0) rfl, fun b1 c1 rest h1 => ?_⟩
  refine decode_cons_congr rfl (decodeBytes_eq_of_agree h0 h1 _) ?_
  cases hcount : operandBytes b0 with
  | zero =>
    have hsame : b1 = c1 := by simpa [ignoredOperandBits_of_operandBytes_eq_zero hcount, and_0xFF] using h1
    rw [hsame]
  | succ n => rfl

/-! ## The first byte -/

/-- The opcode of an encoding is the one the bytes were decoded by: no ignored bit is a bit of the label. -/
theorem label_head?_encode_decodeBytes (b0 b1 b2 : Byte) :
    (encode (decodeBytes b0 b1 b2)).head?.map label = some (label b0) := by
  obtain ⟨b, operands, henc⟩ := exists_encode_eq_cons (decodeBytes b0 b1 b2)
  have hbytes := encode_decodeBytes_append b0 b1 b2 []
  rw [henc, List.cons_append] at hbytes
  rw [henc, (List.cons.inj hbytes).1]
  exact congrArg some (label_and_compl b0 (ignoredOpcodeBits_and_0xF0 b0))

/-- Settles O4: the opcode map is a bijection between labels and opcodes, and the decoder is total. -/
theorem everyOpcodeByteSelectsOneInstruction : Obligations.EveryOpcodeByteSelectsOneInstruction := by
  intro b0
  refine ⟨⟨opOfLabel (label b0), labelOfOp_opOfLabel _, fun op' h => ?_⟩, fun b1 b2 rest => ?_⟩
  · rw [← h, opOfLabel_labelOfOp]
  · refine ⟨decodeBytes b0 b1 b2, ?_, label_head?_encode_decodeBytes b0 b1 b2⟩
    rw [decode_three_bytes, length_decodeBytes, Nat.add_sub_cancel]

end Sys2Proof

namespace Sys2Proof.Machine

/-! ## The length -/

/-- The table of 30_encoding.md R83 counts the opcode byte and the operand bytes of the format. -/
theorem tableLength_eq (b0 : Byte) : tableLength b0 = operandBytes b0 + 1 := by
  obtain ⟨op, R, r, rfl⟩ := exists_eq_opcodeByte b0
  rw [tableLength, operandBytes, label_opcodeByte, isRegisterOperand_opcodeByte, opOfLabel_labelOfOp]
  cases op <;> cases R <;> rfl

theorem decode_cons_of_short {b0 : Byte} {rest : List Byte} (h : rest.length < operandBytes b0) :
    decode (b0 :: rest) = .error .missingOperandBytes := by
  rw [decode, if_pos h]

/-- Settles O5: the table's length is the decoder's, and the decoder checks it against the list and nothing else. -/
theorem firstByteFixesTheLength : Obligations.FirstByteFixesTheLength := by
  intro b0 rest
  rw [tableLength_eq]
  refine ⟨fun h => ⟨_, decode_cons b0 rest (Nat.le_of_succ_le_succ h), length_decodeBytes _ _ _⟩, fun h => ?_⟩
  exact decode_cons_of_short (Nat.lt_of_succ_lt_succ h)

/-! ## Fixed words -/

/-- Settles O1: closed words, evaluated. -/
theorem sourceEncodingExamplesDecode : Obligations.SourceEncodingExamplesDecode := by
  unfold Obligations.SourceEncodingExamplesDecode
  and_intros <;> rfl

/-- Settles O2: closed words, evaluated. -/
theorem wordsOfEveryFamilyDecode : Obligations.WordsOfEveryFamilyDecode := by
  unfold Obligations.WordsOfEveryFamilyDecode
  and_intros <;> rfl

/-! ## The step and the register operand -/

/-- Settles O8: the bytes at PC decode to `fetchedInstr`, which is what a running core executes. -/
theorem stepRunsTheInstructionAtPc : Obligations.StepRunsTheInstructionAtPc := by
  intro s i rest hrun hdec
  rw [decode_fetchedBytes] at hdec
  have hi : s.fetchedInstr = i := congrArg Prod.fst (Except.ok.inj hdec)
  rw [step_of_running hrun, hi, exec_eq_effect]

theorem State.val_of_index {s : State} (h : s.params.regOperand = .index) (r : Reg) :
    s.val r = r.index.setWidth 8 := by rw [val, h]

theorem State.val_of_contents {s : State} (h : s.params.regOperand = .contents) (r : Reg) :
    s.val r = s.reg r := by rw [val, h]

/-- Settles O30: one case of `Val` per setting; the indices are those of 10_state.md R20. -/
theorem registerOperandIsIndexOrContents : Obligations.RegisterOperandIsIndexOrContents := by
  refine fun s r => ⟨fun h => ?_, fun h => State.val_of_contents h r⟩
  rw [State.val_of_index h]
  cases r <;> rfl

end Sys2Proof.Machine

/-! PROOFS. The statements of 40_data_movement.md: the value, PC, SP and the frame of MW, LW, SW, LDA, PUSH and POP,
the stores and pushes into the pointer cells, and the round trip of PUSH and POP. -/

namespace Sys2Proof.Machine

/-! ## PC at the final increment, and a register write before it -/

theorem State.pc_afterFetch_add_one (n : Nat) (s : State) :
    (s.afterFetch n).pc + 1 = s.pc + BitVec.ofNat 16 (n + 1) := by
  rw [pc_afterFetch, add_ofNat_succ, BitVec.add_assoc, BitVec.add_assoc, BitVec.add_comm 1]

theorem State.pc_incPC_setReg (s : State) (r : Reg) (v : Byte) : (s.setReg r v).incPC.pc = s.pc + 1 := by
  rw [pc_incPC, pc_setReg]

theorem State.reg_incPC_setReg_self (s : State) (r : Reg) (v : Byte) : (s.setReg r v).incPC.reg r = v := by
  rw [reg_incPC, reg_setReg_self]

/-! ## MW, LW and LDA -/

/-- Settles O31: both forms are a register write between the operand fetch and the final increment. -/
theorem moveResult : Obligations.MoveResult := by
  intro r s
  have value (v : Byte) : ((s.afterFetch 1).setReg r v).incPC.reg r = v := State.reg_incPC_setReg_self _ r v
  have pc (v : Byte) : ((s.afterFetch 1).setReg r v).incPC.pc = s.pc + 2 :=
    (State.pc_incPC_setReg _ r v).trans (s.pc_afterFetch_add_one 1)
  exact ⟨fun v => ⟨_, exec_eq_effect _ s, value v, pc v, onlyChanges_effect s _⟩,
    fun q => ⟨_, exec_eq_effect _ s, (value _).trans (s.reg_afterFetch 1 q), pc _, onlyChanges_effect s _⟩⟩

theorem State.reg_load1_self (r : Reg) (a : Addr) (s : State) : (s.load1 r a).reg r = s.memRead a := by
  rw [reg_load1, if_pos rfl]

/-- Settles O32: both forms are the load effect, the absolute one after two fetches, which have moved the PC cells. -/
theorem loadResult : Obligations.LoadResult := by
  intro r s
  refine ⟨fun a => ⟨_, exec_eq_effect _ s, ?_, ?_, onlyChanges_effect s _⟩,
    ⟨_, exec_eq_effect _ s, State.reg_load1_self r s.hl s, State.pc_load1 r s.hl s, onlyChanges_effect s _⟩⟩
  · exact (State.reg_load1_self r a _).trans (State.memRead_afterFetch 2 s a)
  · exact (State.pc_load1 r a _).trans (s.pc_afterFetch_add_one 2)

/-- Settles O37: L is written after H and is another register; the pointer is the pair of the two. -/
theorem loadAddressResult : Obligations.LoadAddressResult := by
  intro a s
  have hh : (effect s (.lda a)).reg .h = hiByte a := by
    rw [effect, State.reg_incPC, State.reg_setReg_ne _ _ (by decide), State.reg_setReg_self]
  have hl : (effect s (.lda a)).reg .l = loByte a := by rw [effect, State.reg_incPC_setReg_self]
  have hpc : (effect s (.lda a)).pc = s.pc + 3 := by
    rw [effect, State.pc_incPC_setReg, State.pc_setReg, State.pc_afterFetch_add_one]; rfl
  have hpair : (effect s (.lda a)).hl = a := by rw [State.hl, hh, hl, pair_hiByte_loByte]
  exact ⟨_, exec_eq_effect _ s, hh, hl, hpair, hpc, onlyChanges_effect s _⟩

/-! ## SW -/

/-- Settles O33: both forms are the store effect, which outside the PC cells leaves PC to the final increment. -/
theorem storeResult : Obligations.StoreResult := by
  intro r s
  refine ⟨fun a ha => ⟨_, exec_eq_effect _ s, ?_, ?_, onlyChanges_effect s _⟩,
    fun ha => ⟨_, exec_eq_effect _ s, State.memRead_store1_self ha r s, State.pc_store1_of_not_mem ha r s,
      onlyChanges_effect s _⟩⟩
  · exact (State.memRead_store1_self ha r _).trans (s.reg_afterFetch 2 r)
  · exact (State.pc_store1_of_not_mem ha r _).trans (s.pc_afterFetch_add_one 2)

theorem State.pc_store1_pchCell (r : Reg) (s : State) :
    (s.store1 pchCell r).pc = pair (s.reg r) (loByte s.pc) + 1 := by
  rw [pc_store1, if_pos rfl, if_neg (by decide)]

theorem State.pc_store1_pclCell (r : Reg) (s : State) :
    (s.store1 pclCell r).pc = pair (hiByte s.pc) (s.reg r) + 1 := by
  rw [pc_store1, if_neg (by decide), if_pos rfl]

/-- A cell that may change anyway need not be named twice. -/
theorem OnlyChanges.of_cons_mem {s t : State} {rs : List Reg} {a : Addr} {cs : List Addr}
    (h : OnlyChanges s t rs (a :: cs)) (ha : a ∈ cs) : OnlyChanges s t rs cs :=
  h.weaken (fun _ => id) (List.forall_mem_cons.mpr ⟨ha, fun _ => id⟩)

/-- Settles O34: the store replaces one half of PC as the fetches have left it, and the final increment follows. -/
theorem storeToPcCellMovesPc : Obligations.StoreToPcCellMovesPc := by
  intro r s
  have hpch : pchCell ∈ pcCells := by decide
  have hpcl : pclCell ∈ pcCells := by decide
  refine ⟨⟨_, exec_eq_effect _ s, ?_, (onlyChanges_effect s _).of_cons_mem hpch⟩,
    ⟨_, exec_eq_effect _ s, ?_, (onlyChanges_effect s _).of_cons_mem hpcl⟩,
    fun hhl => ⟨_, exec_eq_effect _ s, ?_, (onlyChanges_effect s _).of_cons_mem (hhl ▸ hpch)⟩,
    fun hhl => ⟨_, exec_eq_effect _ s, ?_, (onlyChanges_effect s _).of_cons_mem (hhl ▸ hpcl)⟩⟩
  · rw [effect, State.pc_store1_pchCell, State.reg_afterFetch, State.pc_afterFetch]; rfl
  · rw [effect, State.pc_store1_pclCell, State.reg_afterFetch, State.pc_afterFetch]; rfl
  · rw [effect, hhl, State.pc_store1_pchCell]
  · rw [effect, hhl, State.pc_store1_pclCell]

/-! ## PUSH outside the pointer cells -/

theorem not_mem_pointerCells {a : Addr} (h : a ∉ spCells ++ pcCells) : a ∉ spCells ∧ a ∉ pcCells :=
  not_or.mp (fun hm => h (List.mem_append.mpr hm))

/-- The pushed byte is in the cell SP pointed to (40_data_movement.md R114). -/
theorem State.memRead_push1_self {s : State} (h : s.sp ∉ spCells ++ pcCells) (v : Byte) :
    (s.push1 v).memRead s.sp = v := by
  obtain ⟨hsp, hpc⟩ := not_mem_pointerCells h
  obtain ⟨hsph, hspl⟩ := not_mem_spCells hsp
  obtain ⟨hpch, hpcl⟩ := not_mem_pcCells hpc
  rw [memRead_push1 v s s.sp hsph hspl hpch hpcl, if_pos rfl]

theorem State.sp_push1_of_not_mem {s : State} (h : s.sp ∉ spCells) (v : Byte) : (s.push1 v).sp = s.sp - 1 := by
  obtain ⟨hsph, hspl⟩ := not_mem_spCells h
  rw [sp_push1, if_neg hsph, if_neg hspl, pair_hiByte_loByte]

theorem State.pc_push1_of_not_mem {s : State} (h : s.sp ∉ pcCells) (v : Byte) : (s.push1 v).pc = s.pc + 1 := by
  obtain ⟨hpch, hpcl⟩ := not_mem_pcCells h
  rw [pc_push1, if_neg hpch, if_neg hpcl, pair_hiByte_loByte]

/-- The fetches do not move SP, so the byte goes to the cell SP pointed to at the first byte. -/
theorem State.memRead_push1_afterFetch_self {s : State} (h : s.sp ∉ spCells ++ pcCells) (n : Nat) (v : Byte) :
    ((s.afterFetch n).push1 v).memRead s.sp = v := by
  rw [← sp_afterFetch n s] at h ⊢
  exact memRead_push1_self h v

theorem State.sp_push1_afterFetch {s : State} (h : s.sp ∉ spCells) (n : Nat) (v : Byte) :
    ((s.afterFetch n).push1 v).sp = s.sp - 1 := by
  rw [← sp_afterFetch n s] at h ⊢
  exact sp_push1_of_not_mem h v

theorem State.pc_push1_afterFetch {s : State} (h : s.sp ∉ pcCells) (n : Nat) (v : Byte) :
    ((s.afterFetch n).push1 v).pc = (s.afterFetch n).pc + 1 := by
  rw [← sp_afterFetch n s] at h
  exact pc_push1_of_not_mem h v

/-- Settles O38: the immediate form is the push effect after one fetch, the register form after none. -/
theorem pushResult : Obligations.PushResult := by
  intro s h
  obtain ⟨hsp, hpc⟩ := not_mem_pointerCells h
  refine ⟨fun v => ⟨_, exec_eq_effect _ s, State.memRead_push1_afterFetch_self h 1 v,
      State.sp_push1_afterFetch hsp 1 v, ?_, onlyChanges_effect s _⟩,
    fun r => ⟨_, exec_eq_effect _ s, State.memRead_push1_self h _, State.sp_push1_of_not_mem hsp _,
      State.pc_push1_of_not_mem hpc _, onlyChanges_effect s _⟩⟩
  exact (State.pc_push1_afterFetch hpc 1 v).trans (s.pc_afterFetch_add_one 1)

/-! ## PUSH into the pointer cells -/

/-- A push at SPH replaces SP's high byte, and the decrement follows (70_reset_and_hazards.md R221). -/
theorem State.sp_push1_sphCell {s : State} (h : s.sp = sphCell) (v : Byte) : (s.push1 v).sp = pair v 0xFC - 1 := by
  rw [sp_push1, h, if_pos rfl, if_neg (by decide)]; rfl

theorem State.sp_push1_splCell {s : State} (h : s.sp = splCell) (v : Byte) : (s.push1 v).sp = pair 0xFF v - 1 := by
  rw [sp_push1, h, if_neg (by decide), if_pos rfl]; rfl

/-- A push at PCH replaces PC's high byte, and the increment follows (70_reset_and_hazards.md R221). -/
theorem State.pc_push1_pchCell {s : State} (h : s.sp = pchCell) (v : Byte) :
    (s.push1 v).pc = pair v (loByte s.pc) + 1 := by
  rw [pc_push1, h, if_pos rfl, if_neg (by decide)]

theorem State.pc_push1_pclCell {s : State} (h : s.sp = pclCell) (v : Byte) :
    (s.push1 v).pc = pair (hiByte s.pc) v + 1 := by
  rw [pc_push1, h, if_neg (by decide), if_pos rfl]

/-- Both forms of PUSH are the push effect, after the fetch of the literal or after none (40_data_movement.md R114). -/
theorem exists_effect_eq_push1 {s : State} {i : Instr} {v : Byte} {len : Nat}
    (h : (i = .pushImm v ∧ len = 2) ∨ ∃ r, i = .pushReg r ∧ v = s.val r ∧ len = 1) :
    ∃ n, len = n + 1 ∧ effect s i = (s.afterFetch n).push1 v := by
  obtain ⟨rfl, rfl⟩ | ⟨r, rfl, rfl, rfl⟩ := h
  · exact ⟨1, rfl, rfl⟩
  · exact ⟨0, rfl, rfl⟩

/-- Settles O39: in each of the four cases one half of one pair is the pushed value, and the other pair is updated as
it was. -/
theorem pushIntoPointerCells : Obligations.PushIntoPointerCells := by
  intro s i v len hi
  have hframe : OnlyChanges s (effect s i) [] (s.sp :: (spCells ++ pcCells)) := by
    obtain ⟨rfl, -⟩ | ⟨r, rfl, -⟩ := hi
    · exact onlyChanges_effect s (.pushImm v)
    · exact onlyChanges_effect s (.pushReg r)
  obtain ⟨n, rfl, heff⟩ := exists_effect_eq_push1 hi
  rw [heff] at hframe
  have hsp := State.sp_afterFetch n s
  have hpc := State.pc_afterFetch n s
  refine ⟨_, (exec_eq_effect i s).trans (congrArg _ heff), hframe.weaken (fun _ => id) (fun _ ha => ?_),
    fun h => ⟨State.sp_push1_sphCell (hsp.trans h) v, ?_⟩, fun h => ⟨State.sp_push1_splCell (hsp.trans h) v, ?_⟩,
    fun h => ⟨?_, ?_⟩, fun h => ⟨?_, ?_⟩⟩
  · exact List.mem_append.mpr ((List.mem_cons.mp ha).symm.imp_right List.mem_singleton.mpr)
  · rw [State.pc_push1_afterFetch (h ▸ by decide), State.pc_afterFetch_add_one]
  · rw [State.pc_push1_afterFetch (h ▸ by decide), State.pc_afterFetch_add_one]
  · rw [State.sp_push1_afterFetch (h ▸ by decide), h]; rfl
  · rw [State.pc_push1_pchCell (hsp.trans h), hpc, Nat.add_sub_cancel]
  · rw [State.sp_push1_afterFetch (h ▸ by decide), h]; rfl
  · rw [State.pc_push1_pclCell (hsp.trans h), hpc, Nat.add_sub_cancel]

/-! ## POP, and PUSH then POP -/

/-- The byte popped: SP's own cells read as the incremented SP, every other cell as before (40_data_movement.md
R115). -/
theorem State.reg_effect_pop_self (s : State) (r : Reg) :
    (effect s (.pop r)).reg r =
      if s.sp + 1 = sphCell then hiByte (s.sp + 1) else if s.sp + 1 = splCell then loByte (s.sp + 1)
      else s.memRead (s.sp + 1) := by
  rw [effect, reg_incPC_setReg_self, sp_incSP, memRead_incSP]

theorem State.sp_effect_pop (s : State) (r : Reg) : (effect s (.pop r)).sp = s.sp + 1 := by
  rw [effect, sp_incPC, sp_setReg, sp_incSP]

theorem State.pc_effect_pop (s : State) (r : Reg) : (effect s (.pop r)).pc = s.pc + 1 := by
  rw [effect, pc_incPC_setReg, pc_incSP]

/-- Settles O40: over an SP cell the byte is that half of the cell's own address. -/
theorem popResult : Obligations.PopResult := by
  intro r s
  refine ⟨_, exec_eq_effect _ s, ?_, s.sp_effect_pop r, s.pc_effect_pop r, onlyChanges_effect s _⟩
  rw [State.reg_effect_pop_self]
  by_cases hsph : s.sp + 1 = sphCell
  · rw [if_pos hsph, if_pos hsph, hsph]; rfl
  · rw [if_neg hsph, if_neg hsph]
    by_cases hspl : s.sp + 1 = splCell
    · rw [if_pos hspl, if_pos hspl, hspl]; rfl
    · rw [if_neg hspl, if_neg hspl]

/-- The SP cells are unchanged when SP is. -/
theorem OnlyChanges.of_sp_eq {s t : State} {rs : List Reg} {cs : List Addr}
    (h : OnlyChanges s t rs (spCells ++ cs)) (hsp : t.sp = s.sp) : OnlyChanges s t rs cs := by
  refine ⟨h.regs, fun a ha => ?_, h.status, h.params⟩
  by_cases hcell : a ∈ spCells
  · obtain rfl | rfl : a = sphCell ∨ a = splCell := by simpa [spCells] using hcell
    · rw [← State.hiByte_sp, hsp, State.hiByte_sp]
    · rw [← State.loByte_sp, hsp, State.loByte_sp]
  · exact h.cells a (fun hm => (List.mem_append.mp hm).elim hcell ha)

/-- Settles O41: POP's increment undoes the decrement, so it reads the cell pushed to. -/
theorem pushThenPopRoundTrip : Obligations.PushThenPopRoundTrip := by
  intro s i v r h hi
  have hpush : ∃ t, exec i s = .next t ∧ t.memRead s.sp = v ∧ t.sp = s.sp - 1 ∧
      OnlyChanges s t [] (s.sp :: (spCells ++ pcCells)) := by
    obtain ⟨himm, hreg⟩ := pushResult s h
    obtain rfl | ⟨q, rfl, rfl⟩ := hi
    · obtain ⟨t, hexec, hv, hsp, -, hframe⟩ := himm v
      exact ⟨t, hexec, hv, hsp, hframe⟩
    · obtain ⟨t, hexec, hv, hsp, -, hframe⟩ := hreg q
      exact ⟨t, hexec, hv, hsp, hframe⟩
  obtain ⟨t, hexecPush, hv, hsp, hframePush⟩ := hpush
  obtain ⟨u, hexecPop, hreg, husp, -, hframePop⟩ := popResult r t
  have hback : t.sp + 1 = s.sp := by rw [hsp, BitVec.sub_add_cancel]
  obtain ⟨hsph, hspl⟩ := not_mem_spCells (not_mem_pointerCells h).1
  have hframe : OnlyChanges s u [r] (spCells ++ s.sp :: pcCells) :=
    (hframePush.trans hframePop).weaken (fun _ => id) (fun a ha => by grind)
  rw [hback] at hreg husp
  rw [if_neg hsph, if_neg hspl, hv] at hreg
  exact ⟨t, u, hexecPush, hexecPop, hreg, husp, hframe.of_sp_eq husp⟩

end Sys2Proof.Machine

/-! PROOFS. The statements of 41_control_flow.md: where JNZ goes, in both forms and under both settings of
REG_OPERAND. -/

namespace Sys2Proof.Machine

/-- PC after the jump effect, by the operand that falls through (41_control_flow.md R140). -/
theorem State.pc_jumpIfNotZero_eq_ite_zero (v : Byte) (s : State) :
    (s.jumpIfNotZero v).pc = if v = 0 then s.pc + 1 else s.hl :=
  (pc_jumpIfNotZero v s).trans (ite_not _ _ _)

/-- Settles O42: both forms are the jump effect, the immediate one after one fetch, which moves PC and leaves H:L. -/
theorem jumpIfNotZeroResult : Obligations.JumpIfNotZeroResult := by
  intro s
  refine ⟨fun v => ⟨_, exec_eq_effect _ s, ?_, onlyChanges_effect s _⟩,
    fun r => ⟨_, exec_eq_effect _ s, State.pc_jumpIfNotZero_eq_ite_zero (s.val r) s, onlyChanges_effect s _⟩⟩
  rw [effect, State.pc_jumpIfNotZero_eq_ite_zero, State.pc_afterFetch_add_one, State.hl_afterFetch]; rfl

/-- Under `index` the operand is zero for register A alone (10_state.md R20). -/
theorem State.val_eq_zero_iff_of_index {s : State} (h : s.params.regOperand = .index) (r : Reg) :
    s.val r = 0 ↔ r = .a := by
  rw [val_of_index h]
  cases r <;> decide

/-- Settles O43: where JNZ r goes is decided by `Val(r)`, which each setting gives. -/
theorem jumpOnRegisterByParameter : Obligations.JumpOnRegisterByParameter := by
  intro r s
  obtain ⟨-, hreg⟩ := jumpIfNotZeroResult s
  obtain ⟨t, hexec, hpc, -⟩ := hreg r
  refine ⟨fun hindex => ⟨t, hexec, ?_⟩, fun hcontents => ⟨t, hexec, ?_⟩⟩
  · simpa only [State.val_eq_zero_iff_of_index hindex] using hpc
  · rwa [State.val_of_contents hcontents] at hpc

end Sys2Proof.Machine

/-! PROOFS. The statements of 42_arithmetic_logic.md: the result, the flags, PC and the frame of ADD, ADC, SBB, CMP, AND,
OR and NOR. -/

namespace Sys2Proof.Machine

/-! ## The flags, and the carry-in and borrow-in as numbers -/

/-- The ordered bit assignments of R150 leave what the table of 42_arithmetic_logic.md R151 says. -/
theorem flagsTable_flagsALU (variant : FlagsVariant) (a b f : Byte) :
    FlagsTable variant a b f (flagsALU variant a b f) := by
  cases variant with
  | reference =>
    have unwritten (k : Nat) (hk : 4 ≤ k) : (flagsALU .reference a b f).getLsbD k = f.getLsbD k := by
      rw [getLsbD_flagsALU_reference, if_neg (by omega)]
    refine ⟨?_, ⟨?_, ?_, ?_⟩, unwritten⟩ <;> rw [getLsbD_flagsALU_reference] <;> simp
  | intended =>
    have unwritten (k : Nat) (hk : 4 ≤ k) : (flagsALU .intended a b f).getLsbD k = f.getLsbD k := by
      rw [getLsbD_flagsALU_intended, if_neg (by omega), if_neg (by omega), if_neg (by omega)]
    refine ⟨?_, ⟨?_, ?_, ?_⟩, unwritten⟩ <;> rw [getLsbD_flagsALU_intended] <;> simp

theorem toNat_bitValue (v : Byte) (i : Nat) : (bitValue v i).toNat = (v.getLsbD i).toNat := by
  unfold bitValue
  cases v.getLsbD i <;> rfl

theorem State.toNat_carry (s : State) : s.carry.toNat = ((s.reg .f).getLsbD 2).toNat := toNat_bitValue _ 2

theorem State.toNat_borrow (s : State) : s.borrow.toNat = ((s.reg .f).getLsbD 3).toNat := toNat_bitValue _ 3

/-- A byte that is added and one that is taken away, as integers (42_arithmetic_logic.md R159). -/
theorem toNat_add_sub_int (a w b : Byte) :
    ((a + w - b).toNat : Int) = ((a.toNat : Int) + (w.toNat : Int) - (b.toNat : Int)) % 256 := by
  have hb := b.isLt
  rw [BitVec.toNat_sub, BitVec.toNat_add]
  omega

/-! ## The two forms of an instruction, and what the operations share -/

/-- An instruction with an immediate and a register form runs one operation, on the operand that yields `b`
(30_encoding.md R91). -/
theorem exists_operand_of_form {s : State} {i : Instr} {b : Byte} {imm : Byte → Instr} {reg : Reg → Instr}
    {op : Operand → State} (himm : ∀ v, effect s (imm v) = op (.imm v)) (hreg : ∀ q, effect s (reg q) = op (.reg q))
    (h : i = imm b ∨ ∃ q, i = reg q ∧ b = s.val q) :
    ∃ o, s.operandValue o = b ∧ exec i s = .next (op o) := by
  obtain rfl | ⟨q, rfl, rfl⟩ := h
  · exact ⟨.imm b, rfl, (exec_eq_effect _ s).trans (congrArg _ (himm b))⟩
  · exact ⟨.reg q, rfl, (exec_eq_effect _ s).trans (congrArg _ (hreg q))⟩

/-- FlagsALU writes F before the result is written, so its flags stay where F is not the destination (decision D8). -/
theorem result_and_flags_of_reg {s t : State} {r : Reg} {v b : Byte}
    (h : ∀ q, t.reg q = if q = r then v
      else if q = .f then flagsALU s.params.flagsVariant (s.reg r) b (s.reg .f) else s.reg q) :
    t.reg r = v ∧ (r ≠ .f → FlagsTable s.params.flagsVariant (s.reg r) b (s.reg .f) (t.reg .f)) := by
  refine ⟨by rw [h, if_pos rfl], fun hne => ?_⟩
  rw [h, if_neg hne.symm, if_pos rfl]
  exact flagsTable_flagsALU _ _ _ _

/-! ## ADD, ADC, SBB and CMP -/

/-- Settles O44: addition of bytes is addition modulo 256. -/
theorem addResult : Obligations.AddResult := by
  intro r s i b hi
  obtain ⟨o, rfl, hexec⟩ := exists_operand_of_form (op := fun o => s.add1 r o) (fun _ => rfl) (fun _ => rfl) hi
  obtain ⟨hreg, hflags⟩ := result_and_flags_of_reg (s.reg_add1 r o)
  refine ⟨_, hexec, ?_, hflags, s.pc_add1 r o, s.onlyChanges_add1 r o⟩
  rw [hreg, BitVec.toNat_add]

/-- Settles O45: the carry-in is read from the old F and is no input of the flags. -/
theorem addWithCarryResult : Obligations.AddWithCarryResult := by
  intro r s i b hi
  obtain ⟨o, rfl, hexec⟩ := exists_operand_of_form (op := fun o => s.adc1 r o) (fun _ => rfl) (fun _ => rfl) hi
  obtain ⟨hreg, hflags⟩ := result_and_flags_of_reg (s.reg_adc1 r o)
  refine ⟨_, hexec, ?_, hflags, s.pc_adc1 r o, s.onlyChanges_adc1 r o⟩
  rw [hreg, BitVec.toNat_add, BitVec.toNat_add, Nat.mod_add_mod, State.toNat_carry]

/-- Settles O46: the borrow-in is read from the old F and is added before `b` is taken away. -/
theorem subtractAddsTheBorrow : Obligations.SubtractAddsTheBorrow := by
  intro r s i b hi
  obtain ⟨o, rfl, hexec⟩ := exists_operand_of_form (op := fun o => s.sbb1 r o) (fun _ => rfl) (fun _ => rfl) hi
  obtain ⟨hreg, hflags⟩ := result_and_flags_of_reg (s.reg_sbb1 r o)
  refine ⟨_, hexec, ?_, hflags, s.pc_sbb1 r o, s.onlyChanges_sbb1 r o⟩
  rw [hreg, toNat_add_sub_int, State.toNat_borrow]

/-- Settles O47: no result is written after FlagsALU, so the flags stay also where F is compared. -/
theorem compareWritesFlagsAlone : Obligations.CompareWritesFlagsAlone := by
  intro r s i b hi
  obtain ⟨o, rfl, hexec⟩ := exists_operand_of_form (op := fun o => s.cmp1 r o) (fun _ => rfl) (fun _ => rfl) hi
  refine ⟨_, hexec, ?_, s.pc_cmp1 r o, s.onlyChanges_cmp1 r o⟩
  rw [State.reg_cmp1, if_pos rfl]
  exact flagsTable_flagsALU _ _ _ _

/-! ## AND, OR and NOR -/

/-- Both forms of a logic instruction write `f` of the operands into the destination alone (42_arithmetic_logic.md R155
to R157). -/
theorem exists_next_of_logic1 {s : State} {r : Reg} {i : Instr} {b : Byte} {imm : Byte → Instr} {reg : Reg → Instr}
    (f : Byte → Byte → Byte) (himm : ∀ v, effect s (imm v) = s.logic1 f r (.imm v))
    (hreg : ∀ q, effect s (reg q) = s.logic1 f r (.reg q)) (h : i = imm b ∨ ∃ q, i = reg q ∧ b = s.val q) :
    ∃ t, exec i s = .next t ∧ t.reg r = f (s.reg r) b ∧ t.pc = s.pc + 2 ∧ OnlyChanges s t [r] pcCells := by
  obtain ⟨o, rfl, hexec⟩ := exists_operand_of_form (op := fun o => s.logic1 f r o) himm hreg h
  exact ⟨_, hexec, by rw [State.reg_logic1, if_pos rfl], s.pc_logic1 f r o, s.onlyChanges_logic1 f r o⟩

/-- Settles O48: the three operations are bitwise, and the complement of a byte is its distance from 255. -/
theorem logicResult : Obligations.LogicResult := by
  intro r s b
  refine ⟨fun i hi => ?_, fun i hi => ?_, fun i hi => ?_⟩
  · obtain ⟨t, hexec, hreg, hrest⟩ := exists_next_of_logic1 (· &&& ·) (fun _ => rfl) (fun _ => rfl) hi
    exact ⟨t, hexec, fun k _ => by rw [hreg, BitVec.getLsbD_and], hrest⟩
  · obtain ⟨t, hexec, hreg, hrest⟩ := exists_next_of_logic1 (· ||| ·) (fun _ => rfl) (fun _ => rfl) hi
    exact ⟨t, hexec, fun k _ => by rw [hreg, BitVec.getLsbD_or], hrest⟩
  · obtain ⟨t, hexec, hreg, hrest⟩ :=
      exists_next_of_logic1 (fun a b => ~~~(a ||| b)) (fun _ => rfl) (fun _ => rfl) hi
    exact ⟨t, hexec, by rw [hreg, BitVec.toNat_not], hrest⟩

end Sys2Proof.Machine

/-! PROOFS. The statements of 43_io.md: INB and OUTB leave the state as it is, and hold a running core for ever. -/

namespace Sys2Proof.Machine

/-- A stalled state holds the run: every further step answers it again. -/
theorem Stalled.run_eq_next {s : State} (h : Stalled s) (n : Nat) : Host.Core.run Sys2Proof.core n s = .next s := by
  induction n with
  | zero => rfl
  | succ n ih => rw [run_succ_of_next h, ih]

/-- Settles O49: the effect of INB and of OUTB is the state itself. -/
theorem inbOutbChangeNothing : Obligations.InbOutbChangeNothing :=
  fun s => ⟨exec_eq_effect .inb s, exec_eq_effect .outb s⟩

/-- A running core with INB or OUTB at PC is stalled (43_io.md R180, R181). -/
theorem stalled_of_inb_or_outb {s : State} (hrun : s.running = true)
    (hio : s.fetchedInstr = .inb ∨ s.fetchedInstr = .outb) : Stalled s := by
  obtain ⟨hinb, houtb⟩ := inbOutbChangeNothing s
  rw [Stalled, step, if_pos hrun]
  obtain h | h := hio
  · rw [h, hinb]
  · rw [h, houtb]

/-- Settles O20: the state at INB or OUTB is stalled, so any number of steps answers it. -/
theorem inbOutbHoldTheRunForEver : Obligations.InbOutbHoldTheRunForEver :=
  fun _ hrun hio n => (stalled_of_inb_or_outb hrun hio).run_eq_next n

end Sys2Proof.Machine

/-! PROOFS. The statements of 70_reset_and_hazards.md: the run loop of a running and of a stopped core, what a load
writes and leaves, the instruction placed at PC, the jump to itself, and where the two parameters matter. -/

namespace Sys2Proof.Machine

/-! ## A running core keeps running -/

/-- No step writes a StatusFlag, so a core that takes a step is running after it (10_state.md R30). -/
theorem running_of_step {s t : State} (h : step s = .next t) : t.running = true := by
  obtain ⟨hrun, rfl⟩ := step_cases h
  rw [State.running, (onlyChanges_effect s s.fetchedInstr).status]
  exact hrun

/-- Settles O12: by induction on the number of steps, with running as the invariant that each step keeps. -/
theorem runNeverEndsOnItsOwn : Obligations.RunNeverEndsOnItsOwn := by
  intro s hrun n
  induction n generalizing s with
  | zero => exact ⟨s, rfl, hrun, rfl⟩
  | succ n ih =>
    have hstep := step_of_running hrun
    rw [run_succ_of_next hstep, runLoop_succ_of_next hstep]
    exact ih _ (running_of_step hstep)

/-! ## The run loop -/

/-- The loop of a core that is not running returns at once (70_reset_and_hazards.md R214). -/
theorem runLoop_of_not_running {s : State} (h : s.running = false) (n : Nat) : runLoop n s = s := by
  cases n with
  | zero => rfl
  | succ n => rw [runLoop, step_of_not_running h]

/-- Settles O11: `step` and the loop both check Running first. -/
theorem stoppedCoreKeepsItsState : Obligations.StoppedCoreKeepsItsState :=
  fun _ h => ⟨step_of_not_running h, runLoop_of_not_running h⟩

/-- A loop stopped between two steps and taken up again is the same loop (70_reset_and_hazards.md R216). -/
theorem runLoop_add (n m : Nat) (s : State) : runLoop (n + m) s = runLoop m (runLoop n s) := by
  induction n generalizing s with
  | zero => rw [Nat.zero_add, runLoop]
  | succ n ih =>
    cases hrun : s.running with
    | true =>
      have hstep := step_of_running hrun
      rw [Nat.succ_add, runLoop_succ_of_next hstep, runLoop_succ_of_next hstep, ih]
    | false => simp only [runLoop_of_not_running hrun]

/-- Settles O13: a load leaves the core running, and the loop of a running core is its steps. -/
theorem loadedRunIsItsSteps : Obligations.LoadedRunIsItsSteps := by
  refine ⟨fun n s t _ hstep => runLoop_succ_of_next hstep n, runLoop_add,
    fun program offset n s => ⟨fun hlen => ?_, fun hlen => ?_⟩⟩
  · have hload := State.load_of_length hlen offset s
    have hrun := State.running_of_load hload
    obtain ⟨u, hsteps, hrunning, hloop⟩ := runNeverEndsOnItsOwn _ hrun n
    exact ⟨_, u, hload, hrun, by rw [State.loadAndRun, hload, Option.map_some, hloop], hsteps, hrunning⟩
  · rw [State.loadAndRun, State.load_of_not_length hlen, Option.map_none]

/-! ## load -/

/-- Settles O23: a load places the bytes and then sets POWER, which touches neither registers nor memory. -/
theorem loadWritesTheProgramAlone : Obligations.LoadWritesTheProgramAlone := by
  refine fun program offset s => ⟨fun hlen => ?_, fun hlen => State.load_of_not_length hlen offset s⟩
  refine ⟨_, State.load_of_length hlen offset s, fun k hk => ?_, fun a ha => ?_, fun r => ?_,
    State.powerOn_status _, ?_, State.wf_placeBytes program offset⟩
  · rw [State.memRead_powerOn, State.memRead_placeBytes program offset s hlen.2 k hk]
  · rw [State.memRead_powerOn, State.memRead_placeBytes_of_outside program offset s a ha]
  · rw [State.reg_powerOn, State.reg, State.placeBytes_regs, State.reg]
  · rw [State.powerOn_params, State.placeBytes_params]

/-- A program that misses a set of cells leaves each of them as it was (70_reset_and_hazards.md R212). -/
theorem State.memRead_placeBytes_of_mem {bs : List Byte} {offset : Addr} {cells : List Addr} {a : Addr}
    (h : ∀ k, k < bs.length → offset + BitVec.ofNat 16 k ∉ cells) (ha : a ∈ cells) (s : State) :
    (State.placeBytes bs offset s).memRead a = s.memRead a :=
  memRead_placeBytes_of_outside bs offset s a (fun k hk e => h k hk (e ▸ ha))

/-- Bytes placed clear of the PC cells leave PC as it was (70_reset_and_hazards.md R212). -/
theorem State.pc_placeBytes {bs : List Byte} {offset : Addr}
    (h : ∀ k, k < bs.length → offset + BitVec.ofNat 16 k ∉ pcCells) (s : State) :
    (State.placeBytes bs offset s).pc = s.pc := by
  rw [pc, memRead_placeBytes_of_mem h (by decide), memRead_placeBytes_of_mem h (by decide), pc]

/-- Bytes placed clear of the SP cells leave SP as it was (70_reset_and_hazards.md R212). -/
theorem State.sp_placeBytes {bs : List Byte} {offset : Addr}
    (h : ∀ k, k < bs.length → offset + BitVec.ofNat 16 k ∉ spCells) (s : State) :
    (State.placeBytes bs offset s).sp = s.sp := by
  rw [sp, memRead_placeBytes_of_mem h (by decide), memRead_placeBytes_of_mem h (by decide), sp]

@[simp] theorem State.pc_powerOn (s : State) : s.powerOn.pc = s.pc := rfl
@[simp] theorem State.sp_powerOn (s : State) : s.powerOn.sp = s.sp := rfl

/-- Two bytes placed at PCH are the halves of the new PC (70_reset_and_hazards.md R212). -/
theorem State.pc_placeBytes_pchCell (hi lo : Byte) (s : State) :
    (State.placeBytes [hi, lo] pchCell s).pc = pair hi lo := by
  have hpch := memRead_placeBytes [hi, lo] pchCell s (by simp) 0 (by simp)
  have hpcl := memRead_placeBytes [hi, lo] pchCell s (by simp) 1 (by simp)
  exact congrArg₂ pair hpch hpcl

/-- Settles O24: each pair is read from its two cells, which keep their bytes or are the program's. -/
theorem loadLeavesPcAndSpToTheProgram : Obligations.LoadLeavesPcAndSpToTheProgram := by
  refine ⟨fun program offset s t hload hclear => ?_, fun program offset s t hload hclear => ?_,
    fun hi lo s => ⟨_, State.load_of_length (by simp) _ s, State.pc_placeBytes_pchCell hi lo s⟩⟩
  · rw [State.eq_powerOn_of_load hload, State.pc_powerOn, State.pc_placeBytes hclear]
  · rw [State.eq_powerOn_of_load hload, State.sp_powerOn, State.sp_placeBytes hclear]

/-! ## The instruction placed at PC -/

/-- Three bytes from an address of at most 0xFFFB end below the PC cells. -/
theorem add_ofNat_not_mem_pcCells {a : Addr} (ha : a.toNat ≤ 0xFFFB) {k : Nat} (hk : k < 3) :
    a + BitVec.ofNat 16 k ∉ pcCells := by
  have hsum : (a + BitVec.ofNat 16 k).toNat = a.toNat + k := by
    rw [BitVec.toNat_add, BitVec.toNat_ofNat]
    omega
  have hcells : ∀ c ∈ pcCells, 0xFFFE ≤ c.toNat := by simp [pcCells, pchCell, pclCell]
  intro hmem
  have := hcells _ hmem
  omega

/-- Away from the PC cells a fetch reads the cell that PC points to (30_encoding.md R88). -/
theorem State.fetchedByte_of_not_mem {s : State} {n : Nat} (h : s.pc + BitVec.ofNat 16 n ∉ pcCells) :
    s.fetchedByte n = s.memRead (s.pc + BitVec.ofNat 16 n) := by
  obtain ⟨hpch, hpcl⟩ := not_mem_pcCells h
  rw [fetchedByte_eq, if_neg hpch, if_neg hpcl]

/-- A table word gives three bytes, and any three bytes decode. -/
theorem exists_bytes_of_tableWord (nbits w : Nat) : ∃ b0 b1 b2,
    tableBytes nbits w = [b0, b1, b2] ∧ decodeTableWord nbits w = some (decodeBytes b0 b1 b2) := by
  refine ⟨_, _, _, rfl, ?_⟩
  rw [decodeTableWord, tableBytes, decode_three_bytes]

/-- Three bytes placed at PC, below the PC cells: PC stays, and the fetches read them back. -/
theorem State.pc_and_fetchedInstr_placeBytes (b0 b1 b2 : Byte) {s : State} (h : s.pc.toNat ≤ 0xFFFB) :
    (State.placeBytes [b0, b1, b2] s.pc s).powerOn.pc = s.pc ∧
      (State.placeBytes [b0, b1, b2] s.pc s).powerOn.fetchedInstr = decodeBytes b0 b1 b2 := by
  have hpc : (State.placeBytes [b0, b1, b2] s.pc s).powerOn.pc = s.pc :=
    pc_placeBytes (fun k hk => add_ofNat_not_mem_pcCells h (by simpa using hk)) s
  have hbyte (k : Nat) (hk : k < 3) :
      (State.placeBytes [b0, b1, b2] s.pc s).powerOn.fetchedByte k = [b0, b1, b2][k] := by
    rw [fetchedByte_of_not_mem (by rw [hpc]; exact add_ofNat_not_mem_pcCells h hk), hpc, memRead_powerOn,
      memRead_placeBytes [b0, b1, b2] s.pc s (by simp) k hk]
  refine ⟨hpc, ?_⟩
  rw [fetchedInstr, hbyte 0 (by decide), hbyte 1 (by decide), hbyte 2 (by decide)]
  rfl

/-- Settles O25: the step of the placed state fetches the table word's bytes, which the decoder reads. -/
theorem placedWordRunsNext : Obligations.PlacedWordRunsNext := by
  intro s nbits w h
  obtain ⟨b0, b1, b2, hbytes, hdecode⟩ := exists_bytes_of_tableWord nbits w
  obtain ⟨hpc, hinstr⟩ := State.pc_and_fetchedInstr_placeBytes b0 b1 b2 h
  refine ⟨_, hdecode, ?_, ?_⟩ <;> rw [State.withFetchWord, hbytes]
  · exact hpc
  · rw [step, if_pos (State.running_powerOn _), hinstr]

/-! ## The jump to itself -/

/-- The PC cells are unchanged when PC is. -/
theorem OnlyChanges.of_pc_eq {s t : State} {rs : List Reg} (h : OnlyChanges s t rs pcCells) (hpc : t.pc = s.pc) :
    OnlyChanges s t rs [] := by
  refine ⟨h.regs, fun a _ => ?_, h.status, h.params⟩
  by_cases hcell : a ∈ pcCells
  · obtain rfl | rfl : a = pchCell ∨ a = pclCell := by simpa [pcCells] using hcell
    · rw [← State.hiByte_pc, hpc, State.hiByte_pc]
    · rw [← State.loByte_pc, hpc, State.loByte_pc]
  · exact h.cells a hcell

/-- Canonical states between which nothing may change are the same state. -/
theorem OnlyChanges.eq_of_nil {s t : State} (h : OnlyChanges s t [] []) (hs : s.Inv) (ht : t.Inv) : t = s := by
  refine State.ext_of_parts (RegFile.ext_of_get fun r => h.regs r List.not_mem_nil) ?_ h.status h.params
  refine Memory.ext_of_read ht hs fun a ha => ?_
  have hcell := h.cells (BitVec.ofNat 16 a) List.not_mem_nil
  rwa [State.memRead, State.memRead, BitVec.toNat_ofNat, Nat.mod_eq_of_lt ha] at hcell

/-- A step that may change the PC cells alone and leaves PC where it was is a fixed point. -/
theorem stalled_of_pc_eq {s t : State} (hinv : s.Inv) (hstep : step s = .next t)
    (hframe : OnlyChanges s t [] pcCells) (hpc : t.pc = s.pc) : Stalled s := by
  have hsame : t = s := (hframe.of_pc_eq hpc).eq_of_nil hinv (stepKeepsMemoryCanonical s t hinv hstep)
  rwa [hsame] at hstep

/-- Settles O21: a taken JNZ changes PC alone, and here it sets PC to the address it has. -/
theorem jumpToSelfIsAFixedPoint : Obligations.JumpToSelfIsAFixedPoint := by
  intro s hinv hrun hself hjump
  obtain ⟨himm, hreg⟩ := jumpIfNotZeroResult s
  have htaken : ∃ t, exec s.fetchedInstr s = .next t ∧ t.pc = s.hl ∧ OnlyChanges s t [] pcCells := by
    obtain ⟨v, hv, hinstr⟩ | ⟨r, hv, hinstr⟩ := hjump <;> rw [hinstr]
    · obtain ⟨t, hexec, hpc, hframe⟩ := himm v
      exact ⟨t, hexec, hpc.trans (if_neg hv), hframe⟩
    · obtain ⟨t, hexec, hpc, hframe⟩ := hreg r
      exact ⟨t, hexec, hpc.trans (if_neg hv), hframe⟩
  obtain ⟨t, hexec, hpc, hframe⟩ := htaken
  have hstep : step s = .next t := (if_pos hrun).trans hexec
  exact stalled_of_pc_eq hinv hstep hframe (hpc.trans hself)

/-! ## The two parameters -/

/-- An effect commutes with a change of the parameters, where an instruction with a Val operand finds the same
`REG_OPERAND` and one with FlagsALU the same `FLAGS_VARIANT` (70_reset_and_hazards.md R225). -/
theorem effect_withParams {p : Params} {s : State} {i : Instr}
    (hval : usesVal i = true → p.regOperand = s.params.regOperand)
    (hflags : usesFlags i = true → p.flagsVariant = s.params.flagsVariant) :
    effect (s.withParams p) i = (effect s i).withParams p := by
  cases i with
  | mwImm | mwReg | lda =>
    simp only [effect, State.afterFetch_withParams, State.reg_withParams, State.setReg_withParams,
      State.incPC_withParams]
  | lwAbs => rw [effect, State.afterFetch_withParams, State.load1_withParams, effect]
  | lwInd => rw [effect, State.hl_withParams, State.load1_withParams, effect]
  | swAbs => rw [effect, State.afterFetch_withParams, State.store1_withParams, effect]
  | swInd => rw [effect, State.hl_withParams, State.store1_withParams, effect]
  | pushImm => rw [effect, State.afterFetch_withParams, State.push1_withParams, effect]
  | pushReg => rw [effect, State.val_withParams (hval rfl), State.push1_withParams, effect]
  | pop =>
    rw [effect, State.incSP_withParams, State.sp_withParams, State.memRead_withParams, State.setReg_withParams,
      State.incPC_withParams, effect]
  | jnzImm => rw [effect, State.afterFetch_withParams, State.jumpIfNotZero_withParams, effect]
  | jnzReg => rw [effect, State.val_withParams (hval rfl), State.jumpIfNotZero_withParams, effect]
  | inb | outb => rfl
  | addImm r v => exact State.add1_withParams p s _ (.inl ⟨v, rfl⟩) (hflags rfl) r
  | addReg r _ => exact State.add1_withParams p s _ (.inr (hval rfl)) (hflags rfl) r
  | adcImm r v => exact State.adc1_withParams p s _ (.inl ⟨v, rfl⟩) (hflags rfl) r
  | adcReg r _ => exact State.adc1_withParams p s _ (.inr (hval rfl)) (hflags rfl) r
  | sbbImm r v => exact State.sbb1_withParams p s _ (.inl ⟨v, rfl⟩) (hflags rfl) r
  | sbbReg r _ => exact State.sbb1_withParams p s _ (.inr (hval rfl)) (hflags rfl) r
  | cmpImm r v => exact State.cmp1_withParams p s _ (.inl ⟨v, rfl⟩) (hflags rfl) r
  | cmpReg r _ => exact State.cmp1_withParams p s _ (.inr (hval rfl)) (hflags rfl) r
  | andImm r v | orImm r v => exact State.logic1_withParams p s _ (.inl ⟨v, rfl⟩) _ r
  | andReg r _ | orReg r _ => exact State.logic1_withParams p s _ (.inr (hval rfl)) _ r
  | norImm r v => exact State.logic1_withParams p s _ (.inl ⟨v, rfl⟩) (fun a b => ~~~(a ||| b)) r
  | norReg r _ => exact State.logic1_withParams p s _ (.inr (hval rfl)) (fun a b => ~~~(a ||| b)) r

/-- Settles O16: a change of one parameter leaves the other as it was, and the instruction does not use the one
changed. -/
theorem parameterHazardIsConfined : Obligations.ParameterHazardIsConfined := by
  refine ⟨fun i s x hnoVal => ?_, fun i s x hnoFlags => ?_⟩ <;> rw [exec_eq_effect, exec_eq_effect, mapNext]
  · exact congrArg _ (effect_withParams (fun h => absurd h (ne_true_of_eq_false hnoVal)) (fun _ => rfl))
  · exact congrArg _ (effect_withParams (fun _ => rfl) (fun h => absurd h (ne_true_of_eq_false hnoFlags)))

end Sys2Proof.Machine
